-- ==== Sys2Proof/Word.lean ====
section
/-! DEFINITION. The words of the block and their widths: 00_scope.md R10 (`W_H`, `W_F`, `W_IDX`), 10_state.md R25
and R26. Arithmetic of the conversion rules is on unbounded integers (00_scope.md R11), so a word is turned into a
`Nat` where a rule computes with it. -/

namespace Sys2Proof

/-- One byte of a caller buffer, of a caller stream or of `b_out` (10_state.md R26, R28, R29). -/
abbrev Byte := BitVec 8

/-- A half (binary16) pattern, `W_H = 16` bits (00_scope.md R10, 30_encoding.md R52). -/
abbrev Half := BitVec 16

/-- A binary32 pattern, `W_F = 32` bits (00_scope.md R10, 30_encoding.md R53). -/
abbrev Single := BitVec 32

/-- A buffer index or buffer length, `W_IDX = 32` bits, unsigned (00_scope.md R10, 10_state.md R28). -/
abbrev Index := BitVec 32

/-- A caller-buffer or caller-stream handle. 10_state.md R25 gives it no width. DESIGN CHOICE (log 8). -/
abbrev Handle := Nat

end Sys2Proof
end

