-- ==== Sys2Proof/Syntax.lean ====
section
/-! DEFINITION. The request as it is issued (10_state.md R25, 30_encoding.md R48), and the operations it selects, one
constructor for each row of spec/opcode_table.json (30_encoding.md R50). -/

namespace Sys2Proof

/-- A request: the operation select and the operand fields, parallel words with no byte order (10_state.md R25,
20_memory.md R36, 30_encoding.md R48). -/
structure Request where
  op : BitVec 3
  x : Single
  h : Half
  buf : Handle
  offset : Index
  st : Handle
deriving DecidableEq, Repr

/-- The operations, each with the request fields it reads and no others (30_encoding.md R50, R51). -/
inductive Instr where
  /-- `ENC`: binary32 to half, non-strict (40_convert.md R67) -/
  | enc (x : Single)
  /-- `ENCS`: binary32 to half, strict (40_convert.md R68) -/
  | encs (x : Single)
  /-- `DEC`: half to binary32 (40_convert.md R71) -/
  | dec (h : Half)
  /-- `TOB`: half to two bytes (41_serialize.md R77) -/
  | tob (h : Half)
  /-- `FROMB`: two bytes of a caller buffer to half (41_serialize.md R78) -/
  | fromb (buf : Handle) (offset : Index)
  /-- `WRS`: half to a caller stream (41_serialize.md R79) -/
  | wrs (h : Half) (st : Handle)
  /-- `RDS`: half from a caller stream (41_serialize.md R80) -/
  | rds (st : Handle)
  /-- the reserved select `op = 111`; it reads no operand (60_exceptions.md R86) -/
  | reserved
deriving DecidableEq, Repr

end Sys2Proof
end

