-- ==== Sys2Proof/WellFormed.lean ====
section
/-! DEFINITION. What makes a request and an operation well formed: 70_reset_and_hazards.md R98 (a), 30_encoding.md R56.
The duties R98 (b) and (c), on the storage a handle names, are about the state: Safety.lean. -/

namespace Sys2Proof

/-- 70_reset_and_hazards.md R98 (a): "`op` is one of the seven select values". Every value of every other field is legal
(30_encoding.md R56). The request that fails this check is still answered, with IllegalOp (60_exceptions.md R86). -/
def Request.wf (r : Request) : Bool := r.op != 0b111#3

/-- The operation is one of the seven of 00_scope.md R4; the reserved select "spells no operation" (30_encoding.md R56). -/
def Instr.wf (i : Instr) : Bool := i != .reserved

end Sys2Proof
end

