-- ==== Sys2Proof/Decode.lean ====
section
/-! DEFINITION. Decoding a request and the encoder written from the same table: 30_encoding.md R50, R51. -/

namespace Sys2Proof

/-- The decoder "reads the whole of `op` to tell which operation it is" (30_encoding.md R48) and takes the fields that
operation reads (R51), by the table of R50. It is total and rejects nothing, because no encoding but `op = 111` is
reserved and none is illegal (R56), and `111` is answered with IllegalOp (60_exceptions.md R86). -/
def decode (r : Request) : Instr :=
  match r.op.toFin with
  | 0b000 => .enc r.x
  | 0b001 => .encs r.x
  | 0b010 => .dec r.h
  | 0b011 => .tob r.h
  | 0b100 => .fromb r.buf r.offset
  | 0b101 => .wrs r.h r.st
  | 0b110 => .rds r.st
  | 0b111 => .reserved

/-- The request with this select and every operand field zero. -/
def Request.ofOp (op : BitVec 3) : Request where
  op := op
  x := 0
  h := 0
  buf := 0
  offset := 0
  st := 0

/-- The request that spells an operation (30_encoding.md R50, R57). The fields the operation does not read are ignored
(R51); the encoder leaves them zero. DESIGN CHOICE (log 20). -/
def encode : Instr → Request
  | .enc x => { Request.ofOp 0b000#3 with x := x }
  | .encs x => { Request.ofOp 0b001#3 with x := x }
  | .dec h => { Request.ofOp 0b010#3 with h := h }
  | .tob h => { Request.ofOp 0b011#3 with h := h }
  | .fromb buf offset => { Request.ofOp 0b100#3 with buf := buf, offset := offset }
  | .wrs h st => { Request.ofOp 0b101#3 with h := h, st := st }
  | .rds st => { Request.ofOp 0b110#3 with st := st }
  | .reserved => Request.ofOp 0b111#3

/-- `op[2:0]` read `x` (30_encoding.md R51). -/
def readsX (op : BitVec 3) : Bool := op == 0b000#3 || op == 0b001#3

/-- `op[2:0]` read `h` (30_encoding.md R51). -/
def readsH (op : BitVec 3) : Bool := op == 0b010#3 || op == 0b011#3 || op == 0b101#3

/-- `op[2:0]` read `buf` and `offset` (30_encoding.md R51). -/
def readsBuf (op : BitVec 3) : Bool := op == 0b100#3

/-- `op[2:0]` read `st` (30_encoding.md R51). -/
def readsSt (op : BitVec 3) : Bool := op == 0b101#3 || op == 0b110#3

/-- A word of spec/opcode_table.json as a request: the table gives bits 2 to 0 to `op` and no bits to the operand fields,
which are zero. The spec gives a request no layout as bits (20_memory.md R36); the bits of the row's byte above `op` are
padding. DESIGN CHOICE (log 13). -/
def Request.ofTableWord (w : Nat) : Request := Request.ofOp (BitVec.ofNat 3 w)

/-- The operation the decoder reads from a word of spec/opcode_table.json of `nbits` bits (log 13). -/
def decodeTableWord (nbits w : Nat) : Option Instr := some (decode (Request.ofTableWord (w % 2 ^ nbits)))

end Sys2Proof
end

