-- ==== Sys2Proof/Config.lean ====
section
/-! DEFINITION. The parameters of 00_scope.md R10. The fixed ones are the widths of Word.lean and the numbers below; the
three OPEN ones have a type here, and an opaque constant that stands for the value an implementation fixes. -/

namespace Sys2Proof

/-- `RDS_FAIL_ADVANCE` (00_scope.md R10, decision D13): how far a failed `read_stream` moves the position. -/
inductive RdsFailAdvance where
  /-- the position stays -/
  | zero
  /-- the position moves on by the number of bytes that were available (0 or 1) -/
  | avail
deriving DecidableEq, Repr, Inhabited

/-- `WRS_FAIL_WRITTEN` (00_scope.md R10, decision D14): how many bytes a failed `write_stream` leaves written. -/
inductive WrsFailWritten where
  | zero
  | one
deriving DecidableEq, Repr, Inhabited

/-- The write capacity of a stream: "a natural number or unbounded" (00_scope.md R10, 10_state.md R29). -/
inductive Capacity where
  | unbounded
  | bounded (n : Nat)
deriving DecidableEq, Repr, Inhabited

/-- The OPEN parameters (00_scope.md R10). "A model takes each OPEN parameter as an argument": the machine takes them from
`State.params`, so that a statement about every state is one about every value of them (log 7). -/
structure Params where
  rdsFailAdvance : RdsFailAdvance
  wrsFailWritten : WrsFailWritten
  streamCap : Capacity
deriving DecidableEq, Repr

/-- `BIAS_H` (00_scope.md R10). -/
def Config.biasH : Int := 15

/-- `BIAS_F` (00_scope.md R10). -/
def Config.biasF : Int := 127

/-- `CANON_NAN_MANT` (00_scope.md R10, decision D7): all ones. The spec's own choice (log 15). -/
def Config.canonNanMant : BitVec 10 := 0x3FF#10

/-- The free value of `RDS_FAIL_ADVANCE` in the machine right after reset (log 7). -/
opaque Config.rdsFailAdvance : RdsFailAdvance

/-- The free value of `WRS_FAIL_WRITTEN` in the machine right after reset (log 7). -/
opaque Config.wrsFailWritten : WrsFailWritten

/-- The free value of `STREAM_CAP` in the machine right after reset (log 7). -/
opaque Config.streamCap : Capacity

/-- The OPEN parameters as an implementation fixes them, free in this model (log 7). -/
def Config.params : Params where
  rdsFailAdvance := Config.rdsFailAdvance
  wrsFailWritten := Config.wrsFailWritten
  streamCap := Config.streamCap

end Sys2Proof
end

