-- ==== Sys2Proof/Machine/State.lean ====
section
/-! DEFINITION. The state: the requests and responses, the caller's storage the block reaches, and the OPEN parameters.
The block itself has none (10_state.md R20 to R24); INVENTORY.md lists each field with its rule and reset value. -/

namespace Sys2Proof.Machine

/-- Sparse data by number, in one canonical form: numbers strictly rising and no entry equal to what an unlisted number
stands for (`Table.wf` of Machine/Ops.lean). -/
abbrev Table (α : Type) := List (Nat × α)

/-- Bytes by index (10_state.md R28, R29); an unlisted index reads 0 (log 10). -/
abbrev Memory := Table Byte

/-- A caller buffer: `buf[0], ..., buf[len-1]` with `0 ≤ len ≤ 2^W_IDX - 1` (10_state.md R28). -/
structure Buffer where
  len : Index
  data : Memory
deriving DecidableEq, Repr

/-- A caller stream, in the parts 10_state.md R29 names. That it has all four, whether it is read or written, is the model's
choice. DESIGN CHOICE (log 25). -/
structure Stream where
  /-- "the bytes, indexed from 0" -/
  data : Memory
  /-- "the index of the next byte to read or write" -/
  pos : Nat
  /-- "for a stream being read, the number of bytes in it" -/
  rlen : Nat
  /-- "for a stream being written, the number of further bytes it accepts" -/
  cap : Capacity
deriving DecidableEq, Repr

/-- A response (10_state.md R26). A field that a rule does not write is 0 (R27): the default of each field. -/
structure Response where
  /-- the error code, 60_exceptions.md R83 -/
  err : BitVec 2 := 0
  hOut : Half := 0
  fOut : Single := 0
  /-- `b_out[0]` -/
  bOut0 : Byte := 0
  /-- `b_out[1]` -/
  bOut1 : Byte := 0
deriving DecidableEq, Repr

/-- A requester (10_state.md R32): what it has issued and the block has not answered yet, in issue order, and the
responses it has received, oldest first (60_exceptions.md R89). -/
structure Requester where
  pending : List Request
  responses : List Response
deriving DecidableEq, Repr

/-- A stop with a fault. The spec gives the block no fault state (70_reset_and_hazards.md R104); its errors are responses.
It names a fault only for a platform on which transfers could overlap, and no step of this model raises one: each
operation is one step (20_memory.md R41; log 17). -/
inductive Fault where
  /-- two transfers overlap on one stream (70_reset_and_hazards.md R100, 93_implementation_defined.md I4). Raised by no
  step. Safe: it could only stop the machine. -/
  | streamOverlap
  /-- the bytes a `FROMB` reads change while it is performed (70_reset_and_hazards.md R101, 93_implementation_defined.md
  I9). Raised by no step. Safe: it could only stop the machine. -/
  | bufferChanged
deriving DecidableEq, Repr

/-- A refusal: an operation the model gives no meaning. -/
inductive Refusal where
  /-- raised by an arm of `exec` that has no meaning yet; no arm raises it. Safe. -/
  | notModelled (mnemonic : String)
deriving DecidableEq, Repr

/-- What a step reads and writes. -/
structure State where
  /-- the OPEN parameters (00_scope.md R10); no step changes them (log 7) -/
  params : Params
  /-- the requesters (10_state.md R32) -/
  requesters : List Requester
  /-- whose request is taken next, and next after that: the model's own field, for the freedom of 20_memory.md R44 (log 3) -/
  schedule : List Nat
  /-- the response of the step just made (10_state.md R26); none where it answered no request (R33) -/
  resp : Option Response
  /-- the caller buffers by handle (10_state.md R28); an unlisted handle names an empty buffer (log 9) -/
  buffers : Table Buffer
  /-- the caller streams by handle (10_state.md R29); an unlisted handle names a fresh stream (log 9) -/
  streams : Table Stream
deriving DecidableEq, Repr

/-- Right after reset: no request is pending and there is no response (10_state.md R33, 70_reset_and_hazards.md R96). One
requester (DESIGN CHOICE, log 4), no storage listed (DESIGN CHOICE, log 9), the OPEN parameters free (log 7). -/
def State.reset : State where
  params := Config.params
  requesters := [{ pending := [], responses := [] }]
  schedule := []
  resp := none
  buffers := []
  streams := []

end Sys2Proof.Machine
end

