-- ==== Sys2Proof/Machine/Flags.lean ====
section
/-! DEFINITION. The status an operation reports. There are no flags (00_scope.md R9, 10_state.md R23): the only status is
the error code of each response (60_exceptions.md R83), and inside the encoder the loss kind (40_convert.md R64). -/

namespace Sys2Proof.Machine

/-- The error kinds of 60_exceptions.md R83. -/
inductive ErrorKind where
  | none
  | precisionLoss
  | rangeError
  | illegalOp
deriving DecidableEq, Repr

/-- The error code of a kind (60_exceptions.md R83). -/
def ErrorKind.code : ErrorKind → BitVec 2
  | .none => 0
  | .precisionLoss => 1
  | .rangeError => 2
  | .illegalOp => 3

/-- The loss kind the encoder "records ... with every result" (40_convert.md R64). -/
inductive Loss where
  | none
  | overflow
  | underflow
deriving DecidableEq, Repr

/-- What `ENCS` raises: PrecisionLoss "exactly when `encode_core(req.x)` reports `loss = OVERFLOW` or `loss = UNDERFLOW`"
(60_exceptions.md R84). -/
def Loss.strictError : Loss → ErrorKind
  | .none => .none
  | .overflow => .precisionLoss
  | .underflow => .precisionLoss

/-- The response that carries an error and no data: every data field 0 (10_state.md R27, 60_exceptions.md R85, R86). No
address, no operation bits and none of the error's arguments are recorded: a response has no field for them (R84, log 19). -/
def Response.error (e : ErrorKind) : Response := { err := e.code }

end Sys2Proof.Machine
end

