-- ==== Sys2Proof/Machine/Formats.lean ====
section
/-! DEFINITION. The two data formats: fields, classes and values (00_scope.md R13 to R15, 30_encoding.md R52 to R55,
40_convert.md R59, R60), and the one rounding rule (R61). -/

namespace Sys2Proof.Machine

/-! ## Half (30_encoding.md R52, 40_convert.md R60) -/

/-- `s = h[15]`. -/
def halfSign (h : Half) : BitVec 1 := h.extractLsb' 15 1

/-- `e = h[14:10]`. -/
def halfExp (h : Half) : BitVec 5 := h.extractLsb' 10 5

/-- `m = h[9:0]`. -/
def halfMant (h : Half) : BitVec 10 := h.extractLsb' 0 10

/-- `{s, e, m}`. -/
def packHalf (s : BitVec 1) (e : BitVec 5) (m : BitVec 10) : Half := s ++ e ++ m

/-! ## binary32 (30_encoding.md R53, 40_convert.md R59) -/

/-- `s = x[31]`. -/
def singleSign (x : Single) : BitVec 1 := x.extractLsb' 31 1

/-- `E = x[30:23]`. -/
def singleExp (x : Single) : BitVec 8 := x.extractLsb' 23 8

/-- `M = x[22:0]`. -/
def singleMant (x : Single) : BitVec 23 := x.extractLsb' 0 23

/-- `{s, E, M}`. -/
def packSingle (s : BitVec 1) (e : BitVec 8) (m : BitVec 23) : Single := s ++ e ++ m

/-! ## Classes (30_encoding.md R54, R55) -/

/-- The classes of the tables of 30_encoding.md R54 and R55. -/
inductive Class where
  | zero
  | subnormal
  | normal
  | infinity
  | nan
deriving DecidableEq, Repr

/-- The class of a half pattern (30_encoding.md R54). -/
def halfClass (h : Half) : Class :=
  if halfExp h = 31 then (if halfMant h = 0 then .infinity else .nan)
  else if halfExp h = 0 then (if halfMant h = 0 then .zero else .subnormal)
  else .normal

/-- The class of a binary32 pattern (30_encoding.md R55). -/
def singleClass (x : Single) : Class :=
  if singleExp x = 255 then (if singleMant x = 0 then .infinity else .nan)
  else if singleExp x = 0 then (if singleMant x = 0 then .zero else .subnormal)
  else .normal

/-- "Finite" means not an infinity and not a NaN (00_scope.md R15). -/
def Class.finite (c : Class) : Bool := c != .infinity && c != .nan

/-! ## Values (00_scope.md R13, R14) -/

/-- What a pattern denotes: NaN, a signed infinity, or a sign and an exact magnitude (signed zero among them). -/
inductive Value where
  | nan
  | infinity (negative : Bool)
  | number (negative : Bool) (magnitude : ℚ)
deriving DecidableEq, Repr

/-- The magnitude of a finite half: `2^(e-15) × (1 + m/2^10)`, and `2^(-14) × (m/2^10)` for `e = 0` (00_scope.md R13). -/
def halfMag (h : Half) : ℚ :=
  if halfExp h = 0 then (2 : ℚ) ^ (-14 : ℤ) * ((halfMant h).toNat / 2 ^ 10)
  else (2 : ℚ) ^ ((halfExp h).toNat - Config.biasH) * (1 + (halfMant h).toNat / 2 ^ 10)

/-- `val16(h)` (00_scope.md R13). -/
def val16 (h : Half) : Value :=
  match halfClass h with
  | .nan => .nan
  | .infinity => .infinity (halfSign h == 1)
  | _ => .number (halfSign h == 1) (halfMag h)

/-- The magnitude of a finite binary32 pattern: `2^(E-127) × (1 + M/2^23)`, and `2^(-126) × (M/2^23)` for `E = 0`
(00_scope.md R14; the spec takes it from general knowledge, 93_implementation_defined.md G1). -/
def singleMag (x : Single) : ℚ :=
  if singleExp x = 0 then (2 : ℚ) ^ (-126 : ℤ) * ((singleMant x).toNat / 2 ^ 23)
  else (2 : ℚ) ^ ((singleExp x).toNat - Config.biasF) * (1 + (singleMant x).toNat / 2 ^ 23)

/-- `val32(x)` (00_scope.md R14). -/
def val32 (x : Single) : Value :=
  match singleClass x with
  | .nan => .nan
  | .infinity => .infinity (singleSign x == 1)
  | _ => .number (singleSign x == 1) (singleMag x)

/-! ## Rounding (40_convert.md R61) -/

/-- `RNE(sig, sh)`: the right shift rounded to nearest, ties to even (40_convert.md R61; 00_scope.md R8: the one rounding
rule). -/
def rne (sig sh : Nat) : Nat :=
  let q := sig >>> sh
  let r := sig % 2 ^ sh
  let half := 2 ^ (sh - 1)
  if r > half ∨ (r = half ∧ q % 2 = 1) then q + 1 else q

end Sys2Proof.Machine
end

