-- ==== Sys2Proof/Machine/Ops.lean ====
section
/-! DEFINITION. The named operations over the state: tables, bytes, the caller's storage, taking a request and delivering
its response, and what a requester does between steps. -/

namespace Sys2Proof.Machine

/-! ## Tables (10_state.md R28, R29; log 9, log 10) -/

/-- What the table holds at `k`; `d` is what an unlisted number stands for. -/
def Table.get {α : Type} (d : α) : Table α → Nat → α
  | [], _ => d
  | (i, v) :: rest, k => if k = i then v else Table.get d rest k

/-- The table with `v` at `k`, in the canonical form: an entry equal to `d` is not listed. -/
def Table.set {α : Type} [DecidableEq α] (d : α) : Table α → Nat → α → Table α
  | [], k, v => if v = d then [] else [(k, v)]
  | (i, w) :: rest, k, v =>
    if k < i then (if v = d then (i, w) :: rest else (k, v) :: (i, w) :: rest)
    else if k = i then (if v = d then rest else (k, v) :: rest)
    else (i, w) :: Table.set d rest k v

/-- The numbers listed rise strictly. -/
def Table.rising {α : Type} : Table α → Bool
  | [] => true
  | (i, _) :: rest => rest.all (fun e => decide (i < e.1)) && Table.rising rest

/-- The canonical form of a table: its numbers rise strictly, and no entry equals what an unlisted number stands for. -/
def Table.wf {α : Type} [DecidableEq α] (d : α) (t : Table α) : Bool :=
  Table.rising t && t.all (fun e => decide (e.2 ≠ d))

/-- The byte at an index; an unlisted index reads 0. DESIGN CHOICE (log 10). -/
def Memory.read (m : Memory) (i : Nat) : Byte := Table.get 0 m i

/-- The bytes with `b` at index `i`. -/
def Memory.write (m : Memory) (i : Nat) (b : Byte) : Memory := Table.set 0 m i b

/-- The canonical form of bytes by index. -/
def Memory.wf (m : Memory) : Bool := Table.wf (0 : Byte) m

/-- The bytes of a list, from index `start` on, over the bytes `m`. -/
def Memory.writeList (m : Memory) (start : Nat) : List Byte → Memory
  | [] => m
  | b :: rest => Memory.writeList (m.write start b) (start + 1) rest

/-! ## Caller storage (10_state.md R28, R29) -/

/-- The buffer of length 0 (10_state.md R28: `0 ≤ len`). -/
def Buffer.empty : Buffer where
  len := 0
  data := []

/-- The buffer that holds a list of bytes; its `len` is the number of bytes it really holds (70_reset_and_hazards.md R98 (b))
for a list of at most `2^W_IDX - 1` bytes, the bound of 10_state.md R28. -/
def Buffer.ofBytes (bytes : List Byte) : Buffer where
  len := BitVec.ofNat 32 bytes.length
  data := Memory.writeList [] 0 bytes

/-- A stream nothing has been read from or written to, with write capacity `cap` (00_scope.md R10, `STREAM_CAP`). 10_state.md
R29 gives `rlen` only to a stream being read; while this one is only written it is 0. DESIGN CHOICE (log 25). -/
def Stream.fresh (cap : Capacity) : Stream where
  data := []
  pos := 0
  rlen := 0
  cap := cap

/-- A stream being read that holds a list of bytes, positioned at its start (10_state.md R29, 95_test_vectors.md P4). R29 gives
`cap` only to a stream being written; that this one has a write capacity too, the one its requester names, is the model's
choice. DESIGN CHOICE (log 25). -/
def Stream.ofBytes (bytes : List Byte) (cap : Capacity) : Stream where
  data := Memory.writeList [] 0 bytes
  pos := 0
  rlen := bytes.length
  cap := cap

/-- A read view of a stream's bytes: the same bytes, positioned at `pos`, with `rlen` bytes in it (41_serialize.md R82). It
is a stream of its own, with a copy of the bytes. DEDUCED (log 12). Its write capacity is the one its requester names: 10_state.md
R29 gives `cap` only to a stream being written. DESIGN CHOICE (log 25). -/
def Stream.readView (st : Stream) (pos rlen : Nat) (cap : Capacity) : Stream where
  data := st.data
  pos := pos
  rlen := rlen
  cap := cap

/-- The caller buffer a handle names; a handle nothing is listed under names an empty buffer. DESIGN CHOICE (log 9). -/
def State.buffer (s : State) (h : Handle) : Buffer := Table.get Buffer.empty s.buffers h

/-- The caller stream a handle names; a handle nothing is listed under names a fresh stream of capacity `STREAM_CAP`
(00_scope.md R10). DESIGN CHOICE (log 9). -/
def State.stream (s : State) (h : Handle) : Stream := Table.get (Stream.fresh s.params.streamCap) s.streams h

/-- The state with this buffer under this handle: only a requester does this (10_state.md R28). -/
def State.setBuffer (s : State) (h : Handle) (b : Buffer) : State :=
  { s with buffers := Table.set Buffer.empty s.buffers h b }

/-- The state with this stream under this handle. -/
def State.setStream (s : State) (h : Handle) (st : Stream) : State :=
  { s with streams := Table.set (Stream.fresh s.params.streamCap) s.streams h st }

/-- A requester opens a fresh stream for writing, of capacity `STREAM_CAP` (00_scope.md R10, 10_state.md R29). -/
def State.openWriteStream (s : State) (h : Handle) : State := s.setStream h (Stream.fresh s.params.streamCap)

/-! ## Requests and responses (10_state.md R25, R26, R32; 20_memory.md R44; 60_exceptions.md R89) -/

/-- The response of this step (10_state.md R26). An error is delivered in the response and nowhere else: "no trap, no
vector, no handler address, no saved program counter, no cause register and no change of mode" (60_exceptions.md R89). -/
def State.respond (s : State) (r : Response) : State := { s with resp := some r }

/-- The requester `r` has a request pending. -/
def State.hasPending (s : State) (r : Nat) : Bool :=
  match s.requesters[r]? with
  | some q => !q.pending.isEmpty
  | none => false

/-- The requester whose request is taken next: the one `schedule` says, where it has one pending; otherwise the first that
has. DESIGN CHOICE (log 3): 20_memory.md R44 lets the requesters' operations interleave in any order. -/
def State.nextRequester (s : State) : Option Nat :=
  match s.schedule with
  | [] => s.requesters.findIdx? (fun q => !q.pending.isEmpty)
  | r :: _ => if s.hasPending r then some r else s.requesters.findIdx? (fun q => !q.pending.isEmpty)

/-- The oldest pending request of a requester (20_memory.md R44: "in the order it issues them"). -/
def State.headRequest (s : State) (r : Nat) : Option Request :=
  match s.requesters[r]? with
  | some q => q.pending.head?
  | none => none

/-- The request a step answers, with its requester; none where none is pending. -/
def State.fetch (s : State) : Option (Nat × Request) :=
  match s.nextRequester with
  | none => none
  | some r =>
    match s.headRequest r with
    | none => none
    | some q => some (r, q)

/-- The requester without its oldest pending request. -/
def Requester.advance (q : Requester) : Requester := { q with pending := q.pending.tail }

/-- The requester with one more response received. -/
def Requester.receive (q : Requester) (r : Option Response) : Requester :=
  { q with responses := q.responses ++ r.toList }

/-- The state with requester `r`'s oldest request taken, and the schedule's head used up. -/
def State.accept (s : State) (r : Nat) : State :=
  { s with requesters := s.requesters.modify r Requester.advance, schedule := s.schedule.tail }

/-- The state with this step's response handed to requester `r`, the one that issued the request (60_exceptions.md R89, R93). -/
def State.deliver (s : State) (r : Nat) : State :=
  { s with requesters := s.requesters.modify r (fun q => q.receive s.resp) }

/-- A step that answers no request leaves no response: "a response exists only as the answer to a request" (10_state.md
R33); nothing else changes (log 6). -/
def State.idle (s : State) : State := { s with resp := none }

/-- A requester issues more requests: a program is a list of requests (30_encoding.md R57, 10_state.md R32; log 2). -/
def State.submit (s : State) (r : Nat) (program : List Request) : State :=
  { s with requesters := s.requesters.modify r (fun q => { q with pending := q.pending ++ program }) }

/-- The state in which `q` is the request answered next: it stands first in requester 0's queue, and the schedule names
requester 0 (log 2). -/
def State.submitNext (s : State) (q : Request) : State :=
  { s with
    requesters :=
      match s.requesters with
      | [] => [{ pending := [q], responses := [] }]
      | p :: rest => { p with pending := q :: p.pending } :: rest
    schedule := 0 :: s.schedule }

/-- The outcome with a change made to its next state, where there is one. -/
def onNext (f : State → State) : Host.Outcome State Fault Refusal → Host.Outcome State Fault Refusal
  | .next s => .next (f s)
  | .fault r => .fault r
  | .refused r => .refused r

end Sys2Proof.Machine
end

