-- ==== Sys2Proof/Machine/Operands.lean ====
section
/-! DEFINITION. How operands are read and results written: the bytes of a half, the caller buffer and the caller stream
(00_scope.md R12, 10_state.md R28, R29, 20_memory.md R37). -/

namespace Sys2Proof.Machine

/-! ## Bytes of a half: "2 bytes, little-endian (low byte first)" (20_memory.md R37) -/

/-- Byte 0, `h[7:0]`. -/
def lowByte (h : Half) : Byte := h.extractLsb' 0 8

/-- Byte 1, `h[15:8]`. -/
def highByte (h : Half) : Byte := h.extractLsb' 8 8

/-- `{hi, lo}`. -/
def halfOfBytes (lo hi : Byte) : Half := hi ++ lo

/-! ## Caller buffer (10_state.md R28) -/

/-- `BufRead(buf, i)`: `buf[i]`. -/
def bufRead (b : Buffer) (i : Nat) : Byte := b.data.read i

/-- The range test of 41_serialize.md R78, "unbounded arithmetic, no wrap": 2 bytes remain from `offset`. -/
def Buffer.inRange (b : Buffer) (offset : Index) : Bool := !(decide (offset.toNat + 2 > b.len.toNat))

/-! ## Caller stream (10_state.md R29) -/

/-- The capacity is less than `n`; an unbounded one never is. -/
def Capacity.below (c : Capacity) (n : Nat) : Bool :=
  match c with
  | .bounded k => decide (k < n)
  | .unbounded => false

/-- `cap - 1`; unbounded less one is unbounded. -/
def Capacity.pred (c : Capacity) : Capacity :=
  match c with
  | .bounded k => .bounded (k - 1)
  | .unbounded => .unbounded

/-- `StreamWrite(st, b)`: "sets `data[pos] <- b`, `pos <- pos + 1` and `cap <- cap - 1`". `rlen` stays (log 21). -/
def streamWrite (st : Stream) (b : Byte) : Stream :=
  { st with data := st.data.write st.pos b, pos := st.pos + 1, cap := Capacity.pred st.cap }

/-- `StreamRead(st)`: "returns `data[pos]` and sets `pos <- pos + 1`". -/
def streamRead (st : Stream) : Byte × Stream := (st.data.read st.pos, { st with pos := st.pos + 1 })

/-- The bytes that remain to be read, `rlen - pos` (10_state.md R29); none where the position is past the end. DEDUCED
(log 11). -/
def Stream.avail (st : Stream) : Nat := st.rlen - st.pos

/-- How far a failed read moves the position: 0, or the bytes that were available (00_scope.md R10, 41_serialize.md R80). -/
def RdsFailAdvance.amount (p : RdsFailAdvance) (avail : Nat) : Nat :=
  match p with
  | .zero => 0
  | .avail => avail

end Sys2Proof.Machine
end

