-- ==== Sys2Proof/Machine/Convert.lean ====
section
/-! DEFINITION. The encoder (`fp32_to_fp16_converter`, `fp16_encoder`: `ENC`, `ENCS`) and the decoder
(`fp16_to_fp32_converter`, `fp16_decoder`: `DEC`): 40_convert.md R59 to R71, 00_scope.md R2. -/

namespace Sys2Proof.Machine

/-! ## Encoder -/

/-- Signed Infinity (00_scope.md R15). -/
def halfInfinity (s : BitVec 1) : Half := packHalf s 0b11111#5 0#10

/-- Signed zero (00_scope.md R15). -/
def halfZero (s : BitVec 1) : Half := packHalf s 0#5 0#10

/-- The canonical half NaN, keeping the sign of the input (40_convert.md R62; the spec's decision D7, log 15). -/
def halfNan (s : BitVec 1) : Half := packHalf s 0b11111#5 Config.canonNanMant

/-- The normal range of `encode_core`, `1 ≤ e16 ≤ 30`: one rounding, and the carry out of the mantissa into the exponent and
into Infinity (40_convert.md R66, steps 6 and 7). -/
def encodeNormal (s : BitVec 1) (sig : Nat) (e16 : Int) : Half × Loss :=
  let k := rne sig 13
  let k' := if k = 2048 then 1024 else k
  let e16' := if k = 2048 then e16 + 1 else e16
  if e16' = 31 then (halfInfinity s, .overflow)
  else (packHalf s (BitVec.ofInt 5 e16') (BitVec.ofNat 10 (k' - 1024)), .none)

/-- The subnormal path of `encode_core`, `e16 ≤ 0`: the total shift is `14 - e16`, rounded once; a rounded mantissa of 1024
is the smallest normal half (40_convert.md R65, R66 step 5). -/
def encodeSubnormal (s : BitVec 1) (sig : Nat) (e16 : Int) : Half × Loss :=
  let m := rne sig (14 - e16).toNat
  if m = 0 then (halfZero s, .underflow)
  else (s ++ BitVec.ofNat 15 m, .none)

/-- `encode_core(x)` (40_convert.md R66): the half and the loss kind (R64). NaN is tested first (R63, 90_conflicts.md C1). -/
def encodeCore (x : Single) : Half × Loss :=
  let s := singleSign x
  let e := (singleExp x).toNat
  let m := (singleMant x).toNat
  if e = 255 ∧ m ≠ 0 then (halfNan s, .none)
  else if e = 255 then (halfInfinity s, .none)
  else if e = 0 ∧ m = 0 then (halfZero s, .none)
  else if e = 0 then (halfZero s, .underflow)
  else
    let sig := 2 ^ 23 + m
    let e16 : Int := e - Config.biasF + Config.biasH
    if e16 ≥ 31 then (halfInfinity s, .overflow)
    else if e16 ≥ 1 then encodeNormal s sig e16
    else encodeSubnormal s sig e16

/-! ## Decoder -/

/-- A subnormal half widened: `p = msb(m)`, exponent `103 + p`, mantissa `(m << (23 - p)) mod 2^23` (40_convert.md R69). -/
def decodeSubnormal (s : BitVec 1) (m : Nat) : Single :=
  let p := Nat.log2 m
  packSingle s (BitVec.ofNat 8 (103 + p)) (BitVec.ofNat 23 ((m <<< (23 - p)) % 2 ^ 23))

/-- `decode_core(h)` (40_convert.md R70). A NaN keeps its sign, and its payload stands in the top 10 bits of the mantissa
(the spec's decision D8, log 15). -/
def decodeCore (h : Half) : Single :=
  let s := halfSign h
  let e := (halfExp h).toNat
  let m := halfMant h
  if e = 31 then packSingle s 0xFF#8 (m ++ 0#13)
  else if e = 0 then
    if m = 0 then packSingle s 0#8 0#23
    else decodeSubnormal s m.toNat
  else packSingle s (BitVec.ofInt 8 (e - Config.biasH + Config.biasF)) (m ++ 0#13)

/-! ## Meanings -/

/-- `ENC` (40_convert.md R67). -/
def execEnc (x : Single) (s : State) : Host.Outcome State Fault Refusal :=
  .next (s.respond { err := ErrorKind.none.code, hOut := (encodeCore x).1 })

/-- `ENCS` (40_convert.md R68): `h_out` is written on error too, and is then no result (10_state.md R27; the spec's decision
D5, log 14). -/
def execEncs (x : Single) (s : State) : Host.Outcome State Fault Refusal :=
  .next (s.respond { err := (encodeCore x).2.strictError.code, hOut := (encodeCore x).1 })

/-- `DEC` (40_convert.md R71). -/
def execDec (h : Half) (s : State) : Host.Outcome State Fault Refusal :=
  .next (s.respond { err := ErrorKind.none.code, fOut := decodeCore h })

end Sys2Proof.Machine
end

