-- ==== Sys2Proof/Machine/Reserved.lean ====
section
/-! DEFINITION. The reserved select `op = 111` (30_encoding.md R56, 60_exceptions.md R86). -/

namespace Sys2Proof.Machine

/-- `op = 111`: "The response is `err = 3` with every data field 0. No request field other than `op` is read, and no caller
storage is touched" (60_exceptions.md R86; the spec's decision D3, log 16). -/
def execReserved (s : State) : Host.Outcome State Fault Refusal := .next (s.respond (Response.error .illegalOp))

end Sys2Proof.Machine
end

