-- ==== Sys2Proof/Machine/Serialize.lean ====
section
/-! DEFINITION. The serializer: `TOB`, `FROMB`, `WRS`, `RDS` (41_serialize.md R76 to R80). It moves bits only and runs
neither the encoder nor the decoder (R76). -/

namespace Sys2Proof.Machine

/-- `TOB` (41_serialize.md R77). -/
def execTob (h : Half) (s : State) : Host.Outcome State Fault Refusal :=
  .next (s.respond { err := ErrorKind.none.code, bOut0 := lowByte h, bOut1 := highByte h })

/-- The response of `FROMB` over a buffer (41_serialize.md R78). -/
def frombResponse (b : Buffer) (offset : Index) : Response :=
  if b.inRange offset then
    { err := ErrorKind.none.code
      hOut := halfOfBytes (bufRead b offset.toNat) (bufRead b (offset.toNat + 1)) }
  else Response.error .rangeError

/-- `FROMB` (41_serialize.md R78). The buffer is only read (20_memory.md R42). -/
def execFromb (buf : Handle) (offset : Index) (s : State) : Host.Outcome State Fault Refusal :=
  .next (s.respond (frombResponse (s.buffer buf) offset))

/-- What `WRS` makes of the stream, and the error it raises (41_serialize.md R79). -/
def wrsStream (p : WrsFailWritten) (h : Half) (st : Stream) : Stream × ErrorKind :=
  if Capacity.below st.cap 2 then
    (if p = .one ∧ st.cap = .bounded 1 then streamWrite st (lowByte h) else st, .rangeError)
  else (streamWrite (streamWrite st (lowByte h)) (highByte h), .none)

/-- `WRS` (41_serialize.md R79). -/
def execWrs (h : Half) (st : Handle) (s : State) : Host.Outcome State Fault Refusal :=
  let out := wrsStream s.params.wrsFailWritten h (s.stream st)
  .next ((s.setStream st out.1).respond { err := out.2.code })

/-- What `RDS` makes of the stream, and its response (41_serialize.md R80). -/
def rdsStream (p : RdsFailAdvance) (st : Stream) : Stream × Response :=
  if st.avail < 2 then
    ({ st with pos := st.pos + RdsFailAdvance.amount p st.avail }, Response.error .rangeError)
  else
    let lo := streamRead st
    let hi := streamRead lo.2
    (hi.2, { err := ErrorKind.none.code, hOut := halfOfBytes lo.1 hi.1 })

/-- `RDS` (41_serialize.md R80). -/
def execRds (st : Handle) (s : State) : Host.Outcome State Fault Refusal :=
  let out := rdsStream s.params.rdsFailAdvance (s.stream st)
  .next ((s.setStream st out.1).respond out.2)

end Sys2Proof.Machine
end

