-- ==== Sys2Proof/Machine/Dispatch.lean ====
section
/-! DEFINITION. The meaning of each operation (30_encoding.md R50). -/

namespace Sys2Proof.Machine

def exec (i : Instr) (s : State) : Host.Outcome State Fault Refusal :=
  match i with
  | .enc x => Sys2Proof.Machine.execEnc x s
  | .encs x => Sys2Proof.Machine.execEncs x s
  | .dec h => Sys2Proof.Machine.execDec h s
  | .tob h => Sys2Proof.Machine.execTob h s
  | .fromb buf offset => Sys2Proof.Machine.execFromb buf offset s
  | .wrs h st => Sys2Proof.Machine.execWrs h st s
  | .rds st => Sys2Proof.Machine.execRds st s
  | .reserved => Sys2Proof.Machine.execReserved s

end Sys2Proof.Machine
end

