-- ==== Sys2Proof/Machine/Step.lean ====
section
/-! DEFINITION. One step: the block answers one pending request, in one indivisible step (10_state.md R32, 20_memory.md
R41, 70_reset_and_hazards.md R102). There is no program counter to advance (10_state.md R22). -/

namespace Sys2Proof.Machine

/-- One step. The request is taken from its requester, decoded and answered, and the response handed to that requester
(10_state.md R26, 60_exceptions.md R89). With no request pending there is nothing to answer (70_reset_and_hazards.md R104,
60_exceptions.md R95: "always ready to accept a request"; log 6). -/
def step (s : State) : Host.Outcome State Fault Refusal :=
  match s.fetch with
  | none => .next s.idle
  | some (r, q) => onNext (fun t => t.deliver r) (exec (decode q) (s.accept r))

/-- The state in which the request of a word of spec/opcode_table.json is the one answered next (log 2, log 13). -/
def State.withFetchWord (s : State) (nbits w : Nat) : State := s.submitNext (Request.ofTableWord (w % 2 ^ nbits))

end Sys2Proof.Machine
end

