-- ==== Sys2Proof/Machine/Assembler.lean ====
section
/-! DEFINITION. Programs as they are written: a list of lines, one request each (30_encoding.md R57), the source's own
spellings and the pseudo-operations (R57, R58), and the literals of R49. A line is its abstract syntax, with the text it is
written as and the request it stands for; a buffer or stream name is the handle it stands for (log 22). -/

namespace Sys2Proof.Machine

/-- A literal for `x` (30_encoding.md R49): the bit pattern in hexadecimal, or a decimal number `± digits / 10^places`. -/
inductive Literal where
  | hex (bits : Single)
  | decimal (negative : Bool) (digits places : Nat)
deriving DecidableEq, Repr

/-- A line of a program. -/
inductive AsmLine where
  /-- `ENC x=<hex32>` (30_encoding.md R57) -/
  | enc (x : Literal)
  /-- `ENCS x=<hex32>` -/
  | encs (x : Literal)
  /-- `DEC h=<hex16>` -/
  | dec (h : Half)
  /-- `TOB h=<hex16>` -/
  | tob (h : Half)
  /-- `FROMB buf=<name>, offset=<n>` -/
  | fromb (buf : Handle) (offset : Index)
  /-- `WRS h=<hex16>, st=<name>` -/
  | wrs (h : Half) (st : Handle)
  /-- `RDS st=<name>` -/
  | rds (st : Handle)
  /-- `encode(x)` -/
  | encode (x : Literal)
  /-- `encode(x, false)`, `encode(x, true)` (30_encoding.md R58) -/
  | encodeStrict (x : Literal) (strict : Bool)
  /-- `decode(h)` -/
  | decode (h : Half)
  /-- `to_bytes(h)` -/
  | toBytes (h : Half)
  /-- `from_bytes(buf, offset)` -/
  | fromBytes (buf : Handle) (offset : Index)
  /-- `write_stream(h, st)` -/
  | writeStream (h : Half) (st : Handle)
  /-- `read_stream(st)` -/
  | readStream (st : Handle)
  /-- `from_f32(x)` (30_encoding.md R58) -/
  | fromF32 (x : Literal)
  /-- `to_f32(h)` (30_encoding.md R58) -/
  | toF32 (h : Half)
  /-- `FromBytes(buf, offset)` (30_encoding.md R58) -/
  | fromBytesSection (buf : Handle) (offset : Index)
  /-- `ToBytes(h)` (30_encoding.md R58) -/
  | toBytesSection (h : Half)
deriving DecidableEq, Repr

/-! ## Literals (30_encoding.md R49) -/

/-- The magnitude bits of the binary32 pattern of exactly `n / 2^k`, where there is one: with `p = msb(n)` the value is
`2^(p-k) × (1 + …)`, so its biased exponent is `p - k + 127`, and below 1 it is a subnormal `M × 2^(-149)` (00_scope.md
R14). -/
def exactSingle (s : BitVec 1) (n k : Nat) : Option Single :=
  let p := Nat.log2 n
  let e : Int := p - k + Config.biasF
  if n = 0 then some (packSingle s 0 0)
  else if e ≥ 255 then none
  else if e ≥ 1 then
    if (n <<< 23) % 2 ^ p = 0 then some (packSingle s (BitVec.ofInt 8 e) (BitVec.ofNat 23 ((n <<< 23) / 2 ^ p)))
    else none
  else if (n <<< 149) % 2 ^ k = 0 then some (packSingle s 0 (BitVec.ofNat 23 ((n <<< 149) / 2 ^ k)))
  else none

/-- The pattern of a literal. "A decimal literal stands for the binary32 pattern of that exact value, and such literals are
used only when the value is exactly representable": it has none otherwise (30_encoding.md R49). -/
def Literal.bits : Literal → Option Single
  | .hex b => some b
  | .decimal negative digits places =>
    if digits % 5 ^ places = 0 then exactSingle (if negative then 1 else 0) (digits / 5 ^ places) places else none

/-! ## Requests (30_encoding.md R57, R58) -/

/-- The operation a line issues; none where its literal has no pattern. -/
def AsmLine.instr : AsmLine → Option Instr
  | .enc x => x.bits.map .enc
  | .encs x => x.bits.map .encs
  | .dec h => some (.dec h)
  | .tob h => some (.tob h)
  | .fromb buf offset => some (.fromb buf offset)
  | .wrs h st => some (.wrs h st)
  | .rds st => some (.rds st)
  | .encode x => x.bits.map .enc
  | .encodeStrict x strict => x.bits.map (if strict then .encs else .enc)
  | .decode h => some (.dec h)
  | .toBytes h => some (.tob h)
  | .fromBytes buf offset => some (.fromb buf offset)
  | .writeStream h st => some (.wrs h st)
  | .readStream st => some (.rds st)
  | .fromF32 x => x.bits.map .enc
  | .toF32 h => some (.dec h)
  | .fromBytesSection buf offset => some (.fromb buf offset)
  | .toBytesSection h => some (.tob h)

/-- The requests of a program, one per line (30_encoding.md R57). -/
def assemble : List AsmLine → Option (List Request)
  | [] => some []
  | line :: rest =>
    match line.instr, assemble rest with
    | some i, some program => some (Sys2Proof.encode i :: program)
    | _, _ => none

/-! ## Text (30_encoding.md R49, R57) -/

/-- One hexadecimal digit. -/
def hexDigit (d : Nat) : Char := if d < 10 then Char.ofNat (48 + d) else Char.ofNat (55 + d)

/-- The low `w` hexadecimal digits of `v`, the most significant first. -/
def hexDigits : Nat → Nat → List Char
  | 0, _ => []
  | w + 1, v => hexDigit (v / 16 ^ w % 16) :: hexDigits w v

/-- A pattern "in hexadecimal" (30_encoding.md R49, 00_scope.md R11). -/
def hexText (w v : Nat) : String := "0x" ++ String.ofList (hexDigits w v)

/-- The last `w` decimal digits of `v`, the most significant first. -/
def decimalDigits : Nat → Nat → List Char
  | 0, _ => []
  | w + 1, v => hexDigit (v / 10 ^ w % 10) :: decimalDigits w v

/-- The text of a literal for `x`. -/
def Literal.text : Literal → String
  | .hex b => hexText 8 b.toNat
  | .decimal negative digits places =>
    (if negative then "-" else "") ++ toString (digits / 10 ^ places)
      ++ (if places = 0 then "" else "." ++ String.ofList (decimalDigits places digits))

/-- An offset, the `<n>` of `offset=<n>` (30_encoding.md R57), in decimal. R57 fixes no number base, and 95_test_vectors.md P3
writes both `offset=4` and `offset=0xFFFFFFFF`. DESIGN CHOICE (log 22). -/
def offsetText (offset : Index) : String := toString offset.toNat

/-- The text of a line (30_encoding.md R57, R58); `bufName` and `stName` are the names of the handles. -/
def AsmLine.text (bufName stName : Handle → String) : AsmLine → String
  | .enc x => "ENC x=" ++ x.text
  | .encs x => "ENCS x=" ++ x.text
  | .dec h => "DEC h=" ++ hexText 4 h.toNat
  | .tob h => "TOB h=" ++ hexText 4 h.toNat
  | .fromb buf offset => "FROMB buf=" ++ bufName buf ++ ", offset=" ++ offsetText offset
  | .wrs h st => "WRS h=" ++ hexText 4 h.toNat ++ ", st=" ++ stName st
  | .rds st => "RDS st=" ++ stName st
  | .encode x => "encode(" ++ x.text ++ ")"
  | .encodeStrict x strict => "encode(" ++ x.text ++ (if strict then ", true)" else ", false)")
  | .decode h => "decode(" ++ hexText 4 h.toNat ++ ")"
  | .toBytes h => "to_bytes(" ++ hexText 4 h.toNat ++ ")"
  | .fromBytes buf offset => "from_bytes(" ++ bufName buf ++ ", " ++ offsetText offset ++ ")"
  | .writeStream h st => "write_stream(" ++ hexText 4 h.toNat ++ ", " ++ stName st ++ ")"
  | .readStream st => "read_stream(" ++ stName st ++ ")"
  | .fromF32 x => "from_f32(" ++ x.text ++ ")"
  | .toF32 h => "to_f32(" ++ hexText 4 h.toNat ++ ")"
  | .fromBytesSection buf offset => "FromBytes(" ++ bufName buf ++ ", " ++ offsetText offset ++ ")"
  | .toBytesSection h => "ToBytes(" ++ hexText 4 h.toNat ++ ")"

end Sys2Proof.Machine
end

