-- ==== Sys2Proof/Safety.lean ====
section
/-! DEFINITION. What a good state is: the storage a handle names is what it really is (70_reset_and_hazards.md R98 (b), (c)),
in its canonical form, and every response is one the block gives (10_state.md R26, R27, 60_exceptions.md R83). -/

namespace Sys2Proof.Machine

/-- A buffer holds no byte outside `buf[0], ..., buf[len-1]` (10_state.md R28), in the canonical form. -/
def Buffer.wf (b : Buffer) : Bool := Memory.wf b.data && b.data.all (fun c => decide (c.1 < b.len.toNat))

/-- A stream's bytes are in the canonical form (10_state.md R29). -/
def Stream.wf (st : Stream) : Bool := Memory.wf st.data

/-- All caller storage is in the canonical form, and there is a requester (10_state.md R32). -/
def State.wf (s : State) : Bool :=
  !s.requesters.isEmpty
    && (Table.wf Buffer.empty s.buffers && s.buffers.all (fun c => c.2.wf))
    && (Table.wf (Stream.fresh s.params.streamCap) s.streams && s.streams.all (fun c => c.2.wf))

/-- What 10_state.md R27 leaves zero: every data field under RangeError and IllegalOp, `f_out` and `b_out` under
PrecisionLoss, and under no error all fields but those of one unit: `h_out` alone, `f_out` alone or `b_out` alone
(30_encoding.md R51). -/
def Response.legal (r : Response) : Bool :=
  if r.err = ErrorKind.rangeError.code ∨ r.err = ErrorKind.illegalOp.code then
    r.hOut == 0 && r.fOut == 0 && r.bOut0 == 0 && r.bOut1 == 0
  else if r.err = ErrorKind.precisionLoss.code then r.fOut == 0 && r.bOut0 == 0 && r.bOut1 == 0
  else
    (r.fOut == 0 && r.bOut0 == 0 && r.bOut1 == 0) || (r.hOut == 0 && r.bOut0 == 0 && r.bOut1 == 0)
      || (r.hOut == 0 && r.fOut == 0)

/-- Every response there is, in the step's and in the requesters' hands, is legal. -/
def State.responsesLegal (s : State) : Bool :=
  s.resp.toList.all Response.legal && s.requesters.all (fun q => q.responses.all Response.legal)

/-- The invariant of the machine. -/
abbrev State.Inv (s : State) : Prop := s.wf = true ∧ s.responsesLegal = true

/-- The caller stream an operation names (30_encoding.md R51: `WRS` and `RDS`). -/
def streamOf : Instr → Option Handle
  | .wrs _ st => some st
  | .rds st => some st
  | .enc _ | .encs _ | .dec _ | .tob _ | .fromb _ _ | .reserved => none

/-- The caller buffer an operation names (30_encoding.md R51: `FROMB`). -/
def bufferOf : Instr → Option Handle
  | .fromb buf _ => some buf
  | .enc _ | .encs _ | .dec _ | .tob _ | .wrs _ _ | .rds _ | .reserved => none

/-- Operations one after another, each complete before the next begins (20_memory.md R44). -/
def execAll : List Instr → State → Host.Outcome State Fault Refusal
  | [], s => .next s
  | i :: rest, s =>
    match exec i s with
    | .next t => execAll rest t
    | .fault r => .fault r
    | .refused r => .refused r

/-- The requests issued and not answered yet. -/
def State.pendingCount (s : State) : Nat := (s.requesters.map (fun q => q.pending.length)).sum

/-- The operand is lost in the encoding: it is finite and the result is an infinity, or it is finite and nonzero and the
result is a zero (40_convert.md R64, 60_exceptions.md R83). -/
def lostInHalf (x : Single) (h : Half) : Bool :=
  (singleClass x).finite && (halfClass h == .infinity || (singleClass x != .zero && halfClass h == .zero))

/-- A run of steps, each ending in a next state. -/
inductive Reaches : State → State → Prop where
  | refl (s : State) : Reaches s s
  | more {s t u : State} : Reaches s t → Sys2Proof.Machine.step t = .next u → Reaches s u

end Sys2Proof.Machine
end

