-- ==== Sys2Proof/Certificates/Slice0/Obligations.lean ====
section
/-! DEFINITION. The statements for the provers. `{ s with resp := some ρ }` is `s` with nothing changed but the response of
the step, and a response written `{ err := …, hOut := … }` has every field it does not name at 0 (10_state.md R27). -/

open Sys2Proof Sys2Proof.Machine

/-! ## Encoding -/

/-- 30_encoding.md R50, R51 (the select values are the spec's decision D3): each select value, whatever the fields it does not
read hold. -/
def Obligations.DecodeFollowsSelectTable : Prop :=
  ∀ (x : Single) (h : Half) (buf : Handle) (offset : Index) (st : Handle),
    decode ⟨0b000#3, x, h, buf, offset, st⟩ = .enc x ∧
    decode ⟨0b001#3, x, h, buf, offset, st⟩ = .encs x ∧
    decode ⟨0b010#3, x, h, buf, offset, st⟩ = .dec h ∧
    decode ⟨0b011#3, x, h, buf, offset, st⟩ = .tob h ∧
    decode ⟨0b100#3, x, h, buf, offset, st⟩ = .fromb buf offset ∧
    decode ⟨0b101#3, x, h, buf, offset, st⟩ = .wrs h st ∧
    decode ⟨0b110#3, x, h, buf, offset, st⟩ = .rds st ∧
    decode ⟨0b111#3, x, h, buf, offset, st⟩ = .reserved

/-- Every operation with every operand is read back from its request; two requests are the same operation exactly where they
agree on `op` and on the fields it reads (30_encoding.md R48, R50, R51). -/
def Obligations.DecodeAndEncodeAgree : Prop :=
  (∀ i : Instr, decode (encode i) = i) ∧
  (∀ r r' : Request, decode r = decode r' ↔
    r.op = r'.op ∧ (readsX r.op = true → r.x = r'.x) ∧ (readsH r.op = true → r.h = r'.h) ∧
      (readsBuf r.op = true → r.buf = r'.buf ∧ r.offset = r'.offset) ∧ (readsSt r.op = true → r.st = r'.st))

/-! ## Formats and rounding -/

/-- 30_encoding.md R54: the classes of half patterns as ranges of patterns. -/
def Obligations.HalfClassesArePatternRanges : Prop :=
  ∀ h : Half,
    (halfClass h = .zero ↔ h.toNat % 2 ^ 15 = 0) ∧
    (halfClass h = .subnormal ↔ 0x0001 ≤ h.toNat % 2 ^ 15 ∧ h.toNat % 2 ^ 15 ≤ 0x03FF) ∧
    (halfClass h = .normal ↔ 0x0400 ≤ h.toNat % 2 ^ 15 ∧ h.toNat % 2 ^ 15 ≤ 0x7BFF) ∧
    (halfClass h = .infinity ↔ h.toNat % 2 ^ 15 = 0x7C00) ∧
    (halfClass h = .nan ↔ 0x7C01 ≤ h.toNat % 2 ^ 15)

/-- 40_convert.md R61. -/
def Obligations.RoundingIsToNearestEven : Prop :=
  ∀ sig sh : Nat, 1 ≤ sh →
    (rne sig sh =
      if sig % 2 ^ sh > 2 ^ (sh - 1) ∨ (sig % 2 ^ sh = 2 ^ (sh - 1) ∧ sig / 2 ^ sh % 2 = 1) then sig / 2 ^ sh + 1
      else sig / 2 ^ sh) ∧
    (∀ n : Nat, |(sig : ℤ) - rne sig sh * 2 ^ sh| ≤ |(sig : ℤ) - n * 2 ^ sh|) ∧
    (∀ n : Nat, n ≠ rne sig sh → |(sig : ℤ) - rne sig sh * 2 ^ sh| = |(sig : ℤ) - n * 2 ^ sh| → rne sig sh % 2 = 0) ∧
    (25 ≤ sh → sig < 2 ^ 24 → rne sig sh = 0)

/-! ## Encoder -/

/-- 40_convert.md R67: `ENC` completes on every operand, with no error, and changes nothing but the response. -/
def Obligations.EncAnswersEncoderResult : Prop :=
  ∀ (x : Single) (s : State),
    exec (.enc x) s = .next { s with resp := some { err := 0, hOut := (encodeCore x).1 } }

/-- 40_convert.md R67, "Corner cases". The bits of a NaN result are the spec's decision D7 (R62; log 15). -/
def Obligations.EncCornerCases : Prop :=
  ∀ (x : Single) (s : State), ∃ h : Half,
    exec (.enc x) s = .next { s with resp := some { err := 0, hOut := h } } ∧
    (singleClass x = .zero → h = packHalf (singleSign x) 0 0) ∧
    (singleClass x = .nan → h = packHalf (singleSign x) 31 0x3FF) ∧
    (singleClass x = .infinity → h = packHalf (singleSign x) 31 0) ∧
    (singleClass x = .subnormal → h = packHalf (singleSign x) 0 0) ∧
    ((singleClass x).finite = true →
      (65520 ≤ singleMag x → h = packHalf (singleSign x) 31 0) ∧
      (65488 < singleMag x → singleMag x < 65520 → h = packHalf (singleSign x) 30 0x3FF) ∧
      (singleMag x ≤ 1 / 2 ^ 25 → h = packHalf (singleSign x) 0 0) ∧
      (1 / 2 ^ 25 < singleMag x → singleMag x < 3 / 2 ^ 25 → h = packHalf (singleSign x) 0 1) ∧
      (1 / 2 ^ 14 - 1 / 2 ^ 25 ≤ singleMag x → singleMag x ≤ 1 / 2 ^ 14 → h = packHalf (singleSign x) 1 0))

/-- 40_convert.md R73: the encoder's result is the nearest half, ties to the even mantissa field, with Infinity from 65520
on. -/
def Obligations.EncRoundsToNearestHalf : Prop :=
  ∀ (x : Single) (s : State), singleClass x ≠ .nan → ∃ h : Half,
    exec (.enc x) s = .next { s with resp := some { err := 0, hOut := h } } ∧
    halfSign h = singleSign x ∧
    (singleClass x = .infinity ∨ 65520 ≤ singleMag x → halfClass h = .infinity) ∧
    ((singleClass x).finite = true → singleMag x < 65520 →
      (halfClass h).finite = true ∧
      ∀ g : Half, (halfClass g).finite = true →
        |halfMag h - singleMag x| ≤ |halfMag g - singleMag x| ∧
        (|halfMag h - singleMag x| = |halfMag g - singleMag x| → halfMag g ≠ halfMag h → (halfMant h).toNat % 2 = 0))

/-- 40_convert.md R64: when the encoder records `OVERFLOW`, and by which of the two ways, and when `UNDERFLOW`; `NONE` in every
other case. -/
def Obligations.LossKindIsExact : Prop :=
  ∀ x : Single,
    ((encodeCore x).2 = .overflow ↔ (singleClass x).finite = true ∧ halfClass (encodeCore x).1 = .infinity) ∧
    ((encodeCore x).2 = .overflow ↔ (singleClass x).finite = true ∧
      (31 ≤ ((singleExp x).toNat : ℤ) - 112 ∨
        (((singleExp x).toNat : ℤ) - 112 = 30 ∧ rne (2 ^ 23 + (singleMant x).toNat) 13 = 2048))) ∧
    ((encodeCore x).2 = .underflow ↔
      (singleClass x).finite = true ∧ singleClass x ≠ .zero ∧ halfClass (encodeCore x).1 = .zero)

/-- 40_convert.md R68, 60_exceptions.md R84: `ENCS` completes on every operand; it raises PrecisionLoss exactly where the
operand is lost in `ENC`'s result, and otherwise answers as `ENC` does. It says nothing of `h_out` under PrecisionLoss, which is
no result (10_state.md R27, the spec's decision D5; log 14). -/
def Obligations.EncsRaisesPrecisionLossExactly : Prop :=
  ∀ (x : Single) (s : State), ∃ h g : Half,
    exec (.enc x) s = .next { s with resp := some { err := 0, hOut := h } } ∧
    exec (.encs x) s = .next { s with resp := some { err := if lostInHalf x h then 1 else 0, hOut := g } } ∧
    (lostInHalf x h = false → exec (.encs x) s = exec (.enc x) s)

/-- 40_convert.md R75: flipping the operand's sign bit flips the result's and changes nothing else, and each conversion copies
the sign bit. For a NaN it holds of the bits the spec's decisions D7 and D8 give (R62, R70; log 15). -/
def Obligations.ConversionsAreSignSymmetric : Prop :=
  (∀ x : Single, halfSign (encodeCore x).1 = singleSign x ∧
    encodeCore (x ^^^ 0x80000000#32) = ((encodeCore x).1 ^^^ 0x8000#16, (encodeCore x).2)) ∧
  (∀ h : Half, singleSign (decodeCore h) = halfSign h ∧
    decodeCore (h ^^^ 0x8000#16) = decodeCore h ^^^ 0x80000000#32)

/-! ## Decoder -/

/-- 40_convert.md R71: `DEC` completes on every operand, with no error, and changes nothing but the response. -/
def Obligations.DecAnswersDecoderResult : Prop :=
  ∀ (h : Half) (s : State),
    exec (.dec h) s = .next { s with resp := some { err := 0, fOut := decodeCore h } }

/-- 40_convert.md R72: the widening is exact. The payload's place in a NaN result is the spec's decision D8 (R70; log 15). -/
def Obligations.DecIsExact : Prop :=
  ∀ (h : Half) (s : State), ∃ f : Single,
    exec (.dec h) s = .next { s with resp := some { err := 0, fOut := f } } ∧
    (halfClass h ≠ .nan → val32 f = val16 h) ∧
    ((singleExp f).toNat = 0 ↔ halfClass h = .zero) ∧
    ((103 ≤ (singleExp f).toNat ∧ (singleExp f).toNat ≤ 142) ↔ (halfClass h = .subnormal ∨ halfClass h = .normal)) ∧
    ((singleExp f).toNat = 255 ↔ (halfClass h = .infinity ∨ halfClass h = .nan)) ∧
    (halfClass h = .nan →
      singleClass f = .nan ∧ singleSign f = halfSign h ∧ (singleMant f).toNat = (halfMant h).toNat * 2 ^ 13)

/-! ## Conversion round trips -/

/-- 40_convert.md R74 (a), (b): `DEC` then `ENC`, or `ENCS`, gives every half back, NaNs as the canonical NaN with the sign kept
(its bits are the spec's decision D7, R62; log 15). -/
def Obligations.HalfSurvivesDecodeEncode : Prop :=
  ∀ (h : Half) (s : State), ∃ (f : Single) (t u : State),
    exec (.dec h) s = .next t ∧ t.resp = some { err := 0, fOut := f } ∧
    exec (.enc f) t = .next u ∧ exec (.encs f) t = .next u ∧
    u.resp = some { err := 0, hOut := if halfClass h = .nan then packHalf (halfSign h) 31 0x3FF else h }

/-- 40_convert.md R74 (c), (d): `ENC` then `DEC` gives back every finite operand whose value a half represents, and not every
operand. -/
def Obligations.ExactSingleSurvivesEncodeDecode : Prop :=
  (∀ (x : Single) (g : Half) (s : State), (singleClass x).finite = true → val16 g = val32 x →
    ∃ (h : Half) (t u : State),
      exec (.enc x) s = .next t ∧ t.resp = some { err := 0, hOut := h } ∧
      exec (.dec h) t = .next u ∧ u.resp = some { err := 0, fOut := x }) ∧
  (∃ x : Single, (singleClass x).finite = true ∧ decodeCore (encodeCore x).1 ≠ x)

/-! ## Serializer -/

/-- 41_serialize.md R77: `op = 011` is `TOB` of the field `h`; `TOB` completes on every pattern, with no error; byte 0 is
`h[7:0]`, byte 1 is `h[15:8]`; the example of R77. -/
def Obligations.TobSplitsLittleEndian : Prop :=
  (∀ r : Request, r.op = 0b011#3 → decode r = .tob r.h) ∧
  (∀ (h : Half) (s : State), ∃ b0 b1 : Byte,
    exec (.tob h) s = .next { s with resp := some { err := 0, bOut0 := b0, bOut1 := b1 } } ∧
    b0 = h.extractLsb' 0 8 ∧ b1 = h.extractLsb' 8 8 ∧ (h = 0x3C00 → b0 = 0x00 ∧ b1 = 0x3C))

/-- 41_serialize.md R78: `FROMB` completes on every buffer and offset, with the two bytes from `offset` or with RangeError, the
sum taken without wrap-around; `len < 2` and `offset = 2^32 - 1` always fail. -/
def Obligations.FrombReadsTwoBytesOrRangeError : Prop :=
  ∀ (buf : Handle) (offset : Index) (s : State), ∃ ρ : Response,
    exec (.fromb buf offset) s = .next { s with resp := some ρ } ∧
    (offset.toNat + 2 ≤ (s.buffer buf).len.toNat →
      ∃ h : Half, ρ = { err := 0, hOut := h } ∧
        h.toNat =
          ((s.buffer buf).data.read (offset.toNat + 1)).toNat * 256 + ((s.buffer buf).data.read offset.toNat).toNat) ∧
    ((s.buffer buf).len.toNat < offset.toNat + 2 → ρ = { err := 2 }) ∧
    ((s.buffer buf).len.toNat < 2 → ρ = { err := 2 }) ∧
    (offset.toNat = 2 ^ 32 - 1 → ρ = { err := 2 })

/-- 20_memory.md R42. -/
def Obligations.FrombHasNoSideEffect : Prop :=
  ∀ (buf : Handle) (offset : Index) (s s' : State),
    (s.buffer buf).len = (s'.buffer buf).len →
    (∀ a, a < (s.buffer buf).len.toNat → (s.buffer buf).data.read a = (s'.buffer buf).data.read a) →
    ∃ ρ : Response,
      exec (.fromb buf offset) s = .next { s with resp := some ρ } ∧
      exec (.fromb buf offset) s' = .next { s' with resp := some ρ }

/-- 41_serialize.md R79: `WRS` with room for two bytes writes them at the position, low byte first, and changes no other byte,
stream or field. That `rlen` stays is the model's reading of 10_state.md R29 (DEDUCED, log 21), and that every other stream
stays is its reading of 20_memory.md R44 (DEDUCED, log 12). -/
def Obligations.WrsWritesTwoBytes : Prop :=
  ∀ (h : Half) (k : Handle) (s : State), s.wf = true → (∀ n, (s.stream k).cap = .bounded n → 2 ≤ n) →
    ∃ t : State, exec (.wrs h k) s = .next t ∧ t.resp = some { err := 0 } ∧
      (t.stream k).pos = (s.stream k).pos + 2 ∧
      (t.stream k).data.read (s.stream k).pos = h.extractLsb' 0 8 ∧
      (t.stream k).data.read ((s.stream k).pos + 1) = h.extractLsb' 8 8 ∧
      (∀ a, a ≠ (s.stream k).pos → a ≠ (s.stream k).pos + 1 → (t.stream k).data.read a = (s.stream k).data.read a) ∧
      ((s.stream k).cap = .unbounded → (t.stream k).cap = .unbounded) ∧
      (∀ n, (s.stream k).cap = .bounded n → (t.stream k).cap = .bounded (n - 2)) ∧
      (t.stream k).rlen = (s.stream k).rlen ∧
      (∀ j, j ≠ k → t.stream j = s.stream j) ∧
      t.buffers = s.buffers ∧ t.params = s.params ∧ t.requesters = s.requesters ∧ t.schedule = s.schedule

/-- 41_serialize.md R79, 60_exceptions.md R85 (c), R90: `WRS` with room for fewer than two bytes answers RangeError; it leaves
the low byte written exactly where `WRS_FAIL_WRITTEN` is 1 and one byte fits, and otherwise nothing. That the error is
RangeError is the spec's decision D14; that `rlen` stays (DEDUCED, log 21) and every other stream (DEDUCED, log 12) is the
model's reading. -/
def Obligations.WrsWithoutRoomIsRangeError : Prop :=
  ∀ (h : Half) (k : Handle) (s : State) (n : Nat), s.wf = true → (s.stream k).cap = .bounded n → n < 2 →
    ∃ t : State, exec (.wrs h k) s = .next t ∧ t.resp = some { err := 2 } ∧
      (¬(s.params.wrsFailWritten = .one ∧ n = 1) → t = { s with resp := some { err := 2 } }) ∧
      (s.params.wrsFailWritten = .one → n = 1 →
        (t.stream k).pos = (s.stream k).pos + 1 ∧ (t.stream k).cap = .bounded 0 ∧
        (t.stream k).rlen = (s.stream k).rlen ∧
        (t.stream k).data.read (s.stream k).pos = h.extractLsb' 0 8 ∧
        (∀ a, a ≠ (s.stream k).pos → (t.stream k).data.read a = (s.stream k).data.read a) ∧
        (∀ j, j ≠ k → t.stream j = s.stream j) ∧
        t.buffers = s.buffers ∧ t.params = s.params ∧ t.requesters = s.requesters ∧ t.schedule = s.schedule)

/-- 41_serialize.md R80: `RDS` with two bytes remaining answers them, low byte first, and moves the position alone. That every
other stream stays is the model's reading (DEDUCED, log 12). -/
def Obligations.RdsReadsTwoBytes : Prop :=
  ∀ (k : Handle) (s : State), s.wf = true → (s.stream k).pos + 2 ≤ (s.stream k).rlen →
    ∃ (t : State) (h : Half), exec (.rds k) s = .next t ∧ t.resp = some { err := 0, hOut := h } ∧
      h.toNat =
        ((s.stream k).data.read ((s.stream k).pos + 1)).toNat * 256 + ((s.stream k).data.read (s.stream k).pos).toNat ∧
      t.stream k = { s.stream k with pos := (s.stream k).pos + 2 } ∧
      (∀ j, j ≠ k → t.stream j = s.stream j) ∧
      t.buffers = s.buffers ∧ t.params = s.params ∧ t.requesters = s.requesters ∧ t.schedule = s.schedule

/-- 41_serialize.md R80, 60_exceptions.md R85 (b): `RDS` with fewer than two bytes remaining answers RangeError with `h_out` 0;
with none remaining nothing changes, and with one the position stays or moves on by 1, as `RDS_FAIL_ADVANCE` says. (That none
remain where the position is past the end is the model's reading, DEDUCED, log 11, and so is that every other stream stays,
DEDUCED, log 12.) -/
def Obligations.RdsAtTheEndIsRangeError : Prop :=
  ∀ (k : Handle) (s : State), s.wf = true → (s.stream k).rlen < (s.stream k).pos + 2 →
    ∃ t : State, exec (.rds k) s = .next t ∧ t.resp = some { err := 2 } ∧
      ((s.stream k).rlen ≤ (s.stream k).pos → t = { s with resp := some { err := 2 } }) ∧
      (s.params.rdsFailAdvance = .zero → t = { s with resp := some { err := 2 } }) ∧
      (s.params.rdsFailAdvance = .avail → (s.stream k).rlen = (s.stream k).pos + 1 →
        t.stream k = { s.stream k with pos := (s.stream k).pos + 1 } ∧
        (∀ j, j ≠ k → t.stream j = s.stream j) ∧
        t.buffers = s.buffers ∧ t.params = s.params ∧ t.requesters = s.requesters ∧ t.schedule = s.schedule)

/-- 20_memory.md R43. -/
def Obligations.StreamAccessAdvancesByTwo : Prop :=
  ∀ (i : Instr) (k : Handle) (s t : State) (ρ : Response), s.wf = true → streamOf i = some k → exec i s = .next t →
    t.resp = some ρ → ρ.err = 0 →
    (t.stream k).pos = (s.stream k).pos + 2 ∧ t.stream k ≠ s.stream k ∧
    (∀ h, i = .wrs h k →
      (t.stream k).data.read (s.stream k).pos = h.extractLsb' 0 8 ∧
      (t.stream k).data.read ((s.stream k).pos + 1) = h.extractLsb' 8 8)

/-- 41_serialize.md R79: "With `STREAM_CAP` unbounded, `WRS` never fails." -/
def Obligations.UnboundedStreamNeverFails : Prop :=
  ∀ (h : Half) (k : Handle) (s : State), s.wf = true → (s.stream k).cap = .unbounded →
    ∃ t : State, exec (.wrs h k) s = .next t ∧ t.resp = some { err := 0 } ∧ (t.stream k).cap = .unbounded

/-- 41_serialize.md R81, at any offset: `TOB`'s bytes, in a buffer, give the half back through `FROMB`. -/
def Obligations.HalfSurvivesBufferRoundTrip : Prop :=
  ∀ (h : Half) (s t s' : State) (ρ : Response) (buf : Handle) (offset : Index),
    exec (.tob h) s = .next t → t.resp = some ρ →
    offset.toNat + 2 ≤ (s'.buffer buf).len.toNat →
    (s'.buffer buf).data.read offset.toNat = ρ.bOut0 →
    (s'.buffer buf).data.read (offset.toNat + 1) = ρ.bOut1 →
    exec (.fromb buf offset) s' = .next { s' with resp := some { err := 0, hOut := h } }

/-- 41_serialize.md R82: a `WRS` that succeeds at position `p`, then an `RDS` on a read view of the same bytes positioned at
`p`. That the view is a stream of its own is the model's reading (DEDUCED, log 12). -/
def Obligations.HalfSurvivesStreamRoundTrip : Prop :=
  ∀ (h : Half) (k j : Handle) (s t s' : State), s.wf = true → s'.wf = true →
    exec (.wrs h k) s = .next t → t.resp = some { err := 0 } →
    (s'.stream j).data = (t.stream k).data → (s'.stream j).pos = (s.stream k).pos →
    (s.stream k).pos + 2 ≤ (s'.stream j).rlen →
    ∃ t' : State, exec (.rds j) s' = .next t' ∧ t'.resp = some { err := 0, hOut := h } ∧
      (t.stream k).pos = (s.stream k).pos + 2 ∧ (t'.stream j).pos = (s'.stream j).pos + 2

/-- 41_serialize.md R82, 20_memory.md R38: `WRS` of one half after another writes them side by side, half `i` at bytes `2i` and
`2i + 1` from the start, with no padding, and no other byte. That every other stream stays is the model's reading (DEDUCED,
log 12); that no requester changes its storage between the operations is the model's choice (DESIGN CHOICE, log 18). -/
def Obligations.WrittenHalvesArePacked : Prop :=
  ∀ (hs : List Half) (k : Handle) (s : State), s.wf = true →
    (∀ n, (s.stream k).cap = .bounded n → 2 * hs.length ≤ n) →
    ∃ t : State, execAll (hs.map (fun h => Instr.wrs h k)) s = .next t ∧
      (t.stream k).pos = (s.stream k).pos + 2 * hs.length ∧
      (∀ (i : Nat) (hi : i < hs.length),
        (t.stream k).data.read ((s.stream k).pos + 2 * i) = hs[i].extractLsb' 0 8 ∧
        (t.stream k).data.read ((s.stream k).pos + 2 * i + 1) = hs[i].extractLsb' 8 8) ∧
      (∀ a, a < (s.stream k).pos ∨ (s.stream k).pos + 2 * hs.length ≤ a →
        (t.stream k).data.read a = (s.stream k).data.read a) ∧
      (∀ j, j ≠ k → t.stream j = s.stream j) ∧ t.buffers = s.buffers

/-! ## Errors -/

/-- 60_exceptions.md R87. -/
def Obligations.EncDecTobNeverRaise : Prop :=
  ∀ (i : Instr) (s : State), ((∃ x, i = .enc x) ∨ (∃ h, i = .dec h) ∨ (∃ h, i = .tob h)) →
    ∃ (t : State) (ρ : Response), exec i s = .next t ∧ t.resp = some ρ ∧ ρ.err = 0

/-- 60_exceptions.md R83, R88 (the codes are the spec's decision D5): every operation answers, and the select settles which
error kinds are possible. -/
def Obligations.SelectSettlesErrorKind : Prop :=
  ∀ (i : Instr) (s : State), ∃ (t : State) (ρ : Response), exec i s = .next t ∧ t.resp = some ρ ∧
    match i with
    | .enc _ => ρ.err = 0
    | .encs _ => ρ.err = 0 ∨ ρ.err = 1
    | .dec _ => ρ.err = 0
    | .tob _ => ρ.err = 0
    | .fromb _ _ => ρ.err = 0 ∨ ρ.err = 2
    | .wrs _ _ => ρ.err = 0 ∨ ρ.err = 2
    | .rds _ => ρ.err = 0 ∨ ρ.err = 2
    | .reserved => ρ.err = 3

/-- 60_exceptions.md R85 (case (c) is the spec's decision D14): RangeError in its three cases and no other, with every data
field 0. -/
def Obligations.RangeErrorExactly : Prop :=
  ∀ (i : Instr) (s t : State) (ρ : Response), exec i s = .next t → t.resp = some ρ →
    (ρ.err = 2 ↔
      (∃ buf offset, i = .fromb buf offset ∧ (s.buffer buf).len.toNat < offset.toNat + 2) ∨
      (∃ k, i = .rds k ∧ (s.stream k).rlen < (s.stream k).pos + 2) ∨
      (∃ h k n, i = .wrs h k ∧ (s.stream k).cap = .bounded n ∧ n < 2)) ∧
    (ρ.err = 2 → ρ = { err := 2 })

/-- 60_exceptions.md R90: a failing operation has no effect beyond its response, but for a failed `RDS` that advances and a
failed `WRS` that leaves one byte, each only where its parameter says so. That a failed `RDS` past the end leaves the position
(DEDUCED, log 11), that the partial write keeps `rlen` (DEDUCED, log 21) and that every other stream stays (DEDUCED, log 12) is
the model's reading. -/
def Obligations.FailedOperationsArePrecise : Prop :=
  ∀ (i : Instr) (s t : State) (ρ : Response), s.wf = true → exec i s = .next t → t.resp = some ρ → ρ.err ≠ 0 →
    t = { s with resp := some ρ } ∨
    (∃ k, i = .rds k ∧ s.params.rdsFailAdvance = .avail ∧ (s.stream k).rlen = (s.stream k).pos + 1 ∧
      t = { s.setStream k { s.stream k with pos := (s.stream k).pos + 1 } with resp := some ρ }) ∨
    (∃ h k, i = .wrs h k ∧ s.params.wrsFailWritten = .one ∧ (s.stream k).cap = .bounded 1 ∧
      t = { s.setStream k { data := (s.stream k).data.write (s.stream k).pos (h.extractLsb' 0 8),
                            pos := (s.stream k).pos + 1, rlen := (s.stream k).rlen, cap := .bounded 0 }
            with resp := some ρ })

/-- 60_exceptions.md R86 (the spec's decision D3; log 16): the reserved select, whatever the other fields hold, answers
IllegalOp with every data field 0, and touches nothing. -/
def Obligations.ReservedSelectAnswersIllegalOp : Prop :=
  ∀ (r : Request) (s : State), r.op = 0b111#3 →
    exec (decode r) s = .next { s with resp := some { err := 3 } }

/-- 30_encoding.md R56, 70_reset_and_hazards.md R98 (a): IllegalOp is answered to the ill-formed request and to no other. -/
def Obligations.IllegalOpOnlyForReservedSelect : Prop :=
  ∀ (r : Request) (s : State), ∃ (t : State) (ρ : Response), exec (decode r) s = .next t ∧ t.resp = some ρ ∧
    (ρ.err = 3 ↔ r.wf = false)

/-- 30_encoding.md R51, 10_state.md R27 (the spec's decision D5): the response fields an operation does not write are 0. -/
def Obligations.UnwrittenFieldsAreZero : Prop :=
  ∀ (i : Instr) (s : State), ∃ (t : State) (ρ : Response), exec i s = .next t ∧ t.resp = some ρ ∧
    ((∀ h, i ≠ .dec h) → ρ.fOut = 0) ∧
    ((∀ h, i ≠ .tob h) → ρ.bOut0 = 0 ∧ ρ.bOut1 = 0) ∧
    ((∀ x, i ≠ .enc x) → (∀ x, i ≠ .encs x) → (∀ b o, i ≠ .fromb b o) → (∀ k, i ≠ .rds k) → ρ.hOut = 0)

/-! ## The whole machine -/

/-- 10_state.md R30, R28, R34: only `WRS` and `RDS` change storage, and only the stream they name; no operation changes a
buffer, the requesters or the parameters. That `WRS` and `RDS` leave every stream but the one they name is the model's
reading: two handles never share bytes (DEDUCED, log 12). -/
def Obligations.OnlyStreamOperationsChangeStorage : Prop :=
  ∀ (i : Instr) (s t : State), exec i s = .next t →
    t.buffers = s.buffers ∧ t.params = s.params ∧ t.requesters = s.requesters ∧ t.schedule = s.schedule ∧
    (streamOf i = none → t.streams = s.streams) ∧
    (s.wf = true → ∀ k, streamOf i ≠ some k → t.stream k = s.stream k)

/-- 10_state.md R20, 70_reset_and_hazards.md R99, R103: the response, and the change to the stream named, are a function of the
request, of the storage the request names, and of the OPEN parameters. Nothing else in the state has an effect. The parameters
are one configuration and not a draw at each failure: R103 allows either, and this is the model's choice (DESIGN CHOICE, log
7). -/
def Obligations.ResponseIsFunctionOfRequestAndStorage : Prop :=
  ∀ (i : Instr) (s s' : State), s.wf = true → s'.wf = true → s.params = s'.params →
    (∀ k, bufferOf i = some k → s.buffer k = s'.buffer k) → (∀ k, streamOf i = some k → s.stream k = s'.stream k) →
    ∃ t t' : State, exec i s = .next t ∧ exec i s' = .next t' ∧ t.resp = t'.resp ∧
      ∀ k, streamOf i = some k → t.stream k = t'.stream k

/-- 20_memory.md R44: "operations that name no common stream give the same results in every interleaving". That two handles are
two streams is the model's reading (DEDUCED, log 12); that the OPEN parameters are one configuration and not a draw at each
failure, so that both orders leave equal streams, is the model's choice of what 70_reset_and_hazards.md R103 allows (DESIGN
CHOICE, log 7). -/
def Obligations.OperationsOnNoCommonStreamCommute : Prop :=
  ∀ (i j : Instr) (s : State), s.wf = true → (∀ k, streamOf i = some k → streamOf j ≠ some k) →
    ∃ a b ab ba : State,
      exec i s = .next a ∧ exec j a = .next ab ∧ exec j s = .next b ∧ exec i b = .next ba ∧
      a.resp = ba.resp ∧ b.resp = ab.resp ∧ ab.streams = ba.streams ∧ ab.buffers = ba.buffers

/-- A step answers the oldest pending request of the requester taken next: it is `exec` of the decoded request, in the state
with the request taken and the schedule's head used up, and the response handed to that requester. (The queues and the schedule
are the model's form of 10_state.md R25, R26, R32: log 1, log 3.) -/
def Obligations.StepRunsDecodedRequest : Prop :=
  ∀ (s u : State) (r : Nat) (p : Requester) (q : Request) (rest : List Request),
    s.nextRequester = some r → s.requesters[r]? = some p → p.pending = q :: rest →
    exec (decode q)
      { s with requesters := s.requesters.set r { p with pending := rest }, schedule := s.schedule.tail } = .next u →
    step s =
      .next { u with
        requesters := u.requesters.set r { pending := rest, responses := p.responses ++ u.resp.toList } }

/-- 10_state.md R26, 20_memory.md R44, 60_exceptions.md R89: where a request is pending, a step answers exactly one, the oldest
of its requester, with exactly one response, the one the operation gives, which goes to that requester and to no other. -/
def Obligations.StepAnswersOneRequestInIssueOrder : Prop :=
  ∀ s : State, (∃ r, s.hasPending r = true) →
    ∃ (t u : State) (r : Nat) (p : Requester) (q : Request) (rest : List Request) (ρ : Response),
      step s = .next t ∧ s.requesters[r]? = some p ∧ p.pending = q :: rest ∧
      exec (decode q) s = .next u ∧ u.resp = some ρ ∧ t.resp = some ρ ∧
      t.streams = u.streams ∧ t.buffers = u.buffers ∧ t.params = s.params ∧
      t.requesters[r]? = some { pending := rest, responses := p.responses ++ [ρ] } ∧
      ∀ j, j ≠ r → t.requesters[j]? = s.requesters[j]?

/-- 70_reset_and_hazards.md R104: "no fault state and no hang". Where no request is pending a step gives no response and changes
nothing else (log 6). -/
def Obligations.EveryStepCompletes : Prop :=
  ∀ s : State, (∃ t, step s = .next t) ∧
    ((∀ r, s.hasPending r = false) → step s = .next { s with resp := none })

/-- 20_memory.md R44: "operations interleave in any order": whichever requester has a request pending, a schedule lets the next
step answer it. (The schedule is the model's own field: log 3.) -/
def Obligations.AnyPendingRequesterMayBeNext : Prop :=
  ∀ (s : State) (r : Nat) (p : Requester) (q : Request) (rest : List Request),
    s.requesters[r]? = some p → p.pending = q :: rest →
    ∃ (w : List Nat) (t : State) (p' : Requester),
      step { s with schedule := w } = .next t ∧ t.requesters[r]? = some p' ∧ p'.pending = rest ∧
      p'.responses.length = p.responses.length + 1

/-- 30_encoding.md R57, 70_reset_and_hazards.md R104: after as many steps as there are requests pending, all are answered, one
response each, to the requester that issued it, after those it had. That requesters issue nothing meanwhile is the model's choice
(DESIGN CHOICE, log 18). -/
def Obligations.EveryPendingRequestIsAnswered : Prop :=
  ∀ s : State, ∃ t : State, Host.Core.run Sys2Proof.core s.pendingCount s = .next t ∧ t.pendingCount = 0 ∧
    ∀ (r : Nat) (p : Requester), s.requesters[r]? = some p →
      ∃ added : List Response, added.length = p.pending.length ∧
        t.requesters[r]? = some { pending := [], responses := p.responses ++ added }

/-- Every step keeps the caller's storage in its canonical form (log 9, log 10): tables with rising numbers and no entry that
equals what an unlisted number stands for, and no buffer byte outside its length (10_state.md R28, R29). -/
def Obligations.StepKeepsStorageCanonical : Prop :=
  ∀ s t : State, s.wf = true → step s = .next t → t.wf = true

/-- Every step keeps this: every response there is leaves zero what 10_state.md R27 (the spec's decision D5) leaves zero. -/
def Obligations.StepKeepsResponsesLegal : Prop :=
  ∀ s t : State, s.responsesLegal = true → step s = .next t → t.responsesLegal = true

/-- Right after reset the invariant holds. -/
def Obligations.ResetMeetsInvariant : Prop := State.reset.Inv

/-- 10_state.md R33, 70_reset_and_hazards.md R96: after reset there is no response, nothing is pending, and a request submitted
is answered at once. -/
def Obligations.ResetAcceptsARequestAtOnce : Prop :=
  State.reset.resp = none ∧ State.reset.pendingCount = 0 ∧
  (∀ p ∈ State.reset.requesters, p.responses = []) ∧
  (∀ q : Request, ∃ (t u : State) (ρ : Response),
    step (State.reset.submit 0 [q]) = .next t ∧ exec (decode q) State.reset = .next u ∧ u.resp = some ρ ∧
    t.requesters[0]? = some { pending := [], responses := [ρ] } ∧ t.streams = u.streams)

/-! ## Programs -/

/-- 30_encoding.md R49: a decimal literal stands for the binary32 pattern of exactly its value, and has one exactly where there
is one. That a minus sign with value 0 stands for the pattern of -0 is the model's reading of 30_encoding.md R49 and 00_scope.md
R14 (DEDUCED, log 22). -/
def Obligations.DecimalLiteralIsExact : Prop :=
  ∀ (negative : Bool) (digits places : Nat) (x : Single),
    (Literal.decimal negative digits places).bits = some x ↔
      val32 x = .number negative ((digits : ℚ) / 10 ^ places)

/-- 30_encoding.md R57, R58: the lines, the source's own spellings and the pseudo-operations stand for these operations. -/
def Obligations.SpellingsStandForTheirOperations : Prop :=
  ∀ (l : Literal) (x : Single) (h : Half) (buf st : Handle) (offset : Index), l.bits = some x →
    (AsmLine.enc l).instr = some (.enc x) ∧ (AsmLine.encs l).instr = some (.encs x) ∧
    (AsmLine.dec h).instr = some (.dec h) ∧ (AsmLine.tob h).instr = some (.tob h) ∧
    (AsmLine.fromb buf offset).instr = some (.fromb buf offset) ∧
    (AsmLine.wrs h st).instr = some (.wrs h st) ∧ (AsmLine.rds st).instr = some (.rds st) ∧
    (AsmLine.encode l).instr = some (.enc x) ∧
    (AsmLine.encodeStrict l false).instr = some (.enc x) ∧ (AsmLine.encodeStrict l true).instr = some (.encs x) ∧
    (AsmLine.decode h).instr = some (.dec h) ∧ (AsmLine.toBytes h).instr = some (.tob h) ∧
    (AsmLine.fromBytes buf offset).instr = some (.fromb buf offset) ∧
    (AsmLine.writeStream h st).instr = some (.wrs h st) ∧ (AsmLine.readStream st).instr = some (.rds st) ∧
    (AsmLine.fromF32 l).instr = some (.enc x) ∧ (AsmLine.toF32 h).instr = some (.dec h) ∧
    (AsmLine.fromBytesSection buf offset).instr = some (.fromb buf offset) ∧
    (AsmLine.toBytesSection h).instr = some (.tob h)
end

