-- ==== Sys2Proof/Laws/Formats.lean ====
section
/-! SUPPORT. Packing and unpacking the two formats (30_encoding.md R52, R53): every pattern and every field as a number, each
field of a packed pattern, and that packing the fields of a pattern gives it back. -/

namespace Sys2Proof.Machine

/-- A concatenation as a number (00_scope.md R11: the first operand in the more significant position). -/
theorem toNat_append_add {n k : Nat} (a : BitVec n) (b : BitVec k) : (a ++ b).toNat = a.toNat * 2 ^ k + b.toNat := by
  rw [BitVec.toNat_append, ← Nat.shiftLeft_add_eq_or_of_lt b.isLt, Nat.shiftLeft_eq]

/-! ## Half -/

theorem toNat_packHalf (s : BitVec 1) (e : BitVec 5) (m : BitVec 10) :
    (packHalf s e m).toNat = s.toNat * 2 ^ 15 + e.toNat * 2 ^ 10 + m.toNat := by
  have : (packHalf s e m).toNat = ((s ++ e) ++ m).toNat := rfl
  rw [this, toNat_append_add, toNat_append_add]
  omega

theorem toNat_halfSign (h : Half) : (halfSign h).toNat = h.toNat / 2 ^ 15 := by
  have := h.isLt
  simp only [halfSign, BitVec.extractLsb'_toNat, Nat.shiftRight_eq_div_pow]
  omega

theorem toNat_halfExp (h : Half) : (halfExp h).toNat = h.toNat / 2 ^ 10 % 2 ^ 5 := by
  simp only [halfExp, BitVec.extractLsb'_toNat, Nat.shiftRight_eq_div_pow]

theorem toNat_halfMant (h : Half) : (halfMant h).toNat = h.toNat % 2 ^ 10 := by
  simp only [halfMant, BitVec.extractLsb'_toNat, Nat.shiftRight_eq_div_pow, pow_zero, Nat.div_one]

@[simp] theorem halfSign_packHalf (s : BitVec 1) (e : BitVec 5) (m : BitVec 10) : halfSign (packHalf s e m) = s := by
  have := s.isLt; have := e.isLt; have := m.isLt
  apply BitVec.eq_of_toNat_eq
  rw [toNat_halfSign, toNat_packHalf]
  omega

@[simp] theorem halfExp_packHalf (s : BitVec 1) (e : BitVec 5) (m : BitVec 10) : halfExp (packHalf s e m) = e := by
  have := s.isLt; have := e.isLt; have := m.isLt
  apply BitVec.eq_of_toNat_eq
  rw [toNat_halfExp, toNat_packHalf]
  omega

@[simp] theorem halfMant_packHalf (s : BitVec 1) (e : BitVec 5) (m : BitVec 10) : halfMant (packHalf s e m) = m := by
  have := s.isLt; have := e.isLt; have := m.isLt
  apply BitVec.eq_of_toNat_eq
  rw [toNat_halfMant, toNat_packHalf]
  omega

@[simp] theorem packHalf_fields (h : Half) : packHalf (halfSign h) (halfExp h) (halfMant h) = h := by
  have := h.isLt
  apply BitVec.eq_of_toNat_eq
  rw [toNat_packHalf, toNat_halfSign, toNat_halfExp, toNat_halfMant]
  omega

/-! ## binary32 -/

theorem toNat_packSingle (s : BitVec 1) (e : BitVec 8) (m : BitVec 23) :
    (packSingle s e m).toNat = s.toNat * 2 ^ 31 + e.toNat * 2 ^ 23 + m.toNat := by
  have : (packSingle s e m).toNat = ((s ++ e) ++ m).toNat := rfl
  rw [this, toNat_append_add, toNat_append_add]
  omega

theorem toNat_singleSign (x : Single) : (singleSign x).toNat = x.toNat / 2 ^ 31 := by
  have := x.isLt
  simp only [singleSign, BitVec.extractLsb'_toNat, Nat.shiftRight_eq_div_pow]
  omega

theorem toNat_singleExp (x : Single) : (singleExp x).toNat = x.toNat / 2 ^ 23 % 2 ^ 8 := by
  simp only [singleExp, BitVec.extractLsb'_toNat, Nat.shiftRight_eq_div_pow]

theorem toNat_singleMant (x : Single) : (singleMant x).toNat = x.toNat % 2 ^ 23 := by
  simp only [singleMant, BitVec.extractLsb'_toNat, Nat.shiftRight_eq_div_pow, pow_zero, Nat.div_one]

@[simp] theorem singleSign_packSingle (s : BitVec 1) (e : BitVec 8) (m : BitVec 23) :
    singleSign (packSingle s e m) = s := by
  have := s.isLt; have := e.isLt; have := m.isLt
  apply BitVec.eq_of_toNat_eq
  rw [toNat_singleSign, toNat_packSingle]
  omega

@[simp] theorem singleExp_packSingle (s : BitVec 1) (e : BitVec 8) (m : BitVec 23) :
    singleExp (packSingle s e m) = e := by
  have := s.isLt; have := e.isLt; have := m.isLt
  apply BitVec.eq_of_toNat_eq
  rw [toNat_singleExp, toNat_packSingle]
  omega

@[simp] theorem singleMant_packSingle (s : BitVec 1) (e : BitVec 8) (m : BitVec 23) :
    singleMant (packSingle s e m) = m := by
  have := s.isLt; have := e.isLt; have := m.isLt
  apply BitVec.eq_of_toNat_eq
  rw [toNat_singleMant, toNat_packSingle]
  omega

@[simp] theorem packSingle_fields (x : Single) : packSingle (singleSign x) (singleExp x) (singleMant x) = x := by
  have := x.isLt
  apply BitVec.eq_of_toNat_eq
  rw [toNat_packSingle, toNat_singleSign, toNat_singleExp, toNat_singleMant]
  omega

/-! ## Magnitudes from the fields (00_scope.md R13, R14) -/

theorem halfMag_normal (h : Half) (e m : Nat) (he : e ≠ 0) (hE : (halfExp h).toNat = e) (hM : (halfMant h).toNat = m) :
    halfMag h = (2 : ℚ) ^ ((e : ℤ) - 15) * (1 + m / 2 ^ 10) := by
  have : halfExp h ≠ 0 := by rintro z; rw [z] at hE; exact he hE.symm
  rw [halfMag, if_neg this, hE, hM, Config.biasH]

theorem halfMag_subnormal (h : Half) (m : Nat) (hE : (halfExp h).toNat = 0) (hM : (halfMant h).toNat = m) :
    halfMag h = (2 : ℚ) ^ (-14 : ℤ) * (m / 2 ^ 10) := by
  have : halfExp h = 0 := BitVec.eq_of_toNat_eq hE
  rw [halfMag, if_pos this, hM]

theorem singleMag_normal (x : Single) (e m : Nat) (he : e ≠ 0) (hE : (singleExp x).toNat = e)
    (hM : (singleMant x).toNat = m) : singleMag x = (2 : ℚ) ^ ((e : ℤ) - 127) * (1 + m / 2 ^ 23) := by
  have : singleExp x ≠ 0 := by rintro z; rw [z] at hE; exact he hE.symm
  rw [singleMag, if_neg this, hE, hM, Config.biasF]

theorem singleMag_subnormal (x : Single) (m : Nat) (hE : (singleExp x).toNat = 0) (hM : (singleMant x).toNat = m) :
    singleMag x = (2 : ℚ) ^ (-126 : ℤ) * (m / 2 ^ 23) := by
  have : singleExp x = 0 := BitVec.eq_of_toNat_eq hE
  rw [singleMag, if_pos this, hM]

/-! ## Bytes of a half (20_memory.md R37) -/

theorem toNat_lowByte (h : Half) : (lowByte h).toNat = h.toNat % 2 ^ 8 := by
  simp only [lowByte, BitVec.extractLsb'_toNat, Nat.shiftRight_eq_div_pow, pow_zero, Nat.div_one]

theorem toNat_highByte (h : Half) : (highByte h).toNat = h.toNat / 2 ^ 8 := by
  have := h.isLt
  simp only [highByte, BitVec.extractLsb'_toNat, Nat.shiftRight_eq_div_pow]
  omega

theorem toNat_halfOfBytes (lo hi : Byte) : (halfOfBytes lo hi).toNat = hi.toNat * 2 ^ 8 + lo.toNat :=
  toNat_append_add hi lo

/-- The two bytes of a half, put together again. -/
@[simp] theorem halfOfBytes_bytes (h : Half) : halfOfBytes (lowByte h) (highByte h) = h := by
  apply BitVec.eq_of_toNat_eq
  rw [toNat_halfOfBytes, toNat_lowByte, toNat_highByte]
  omega

end Sys2Proof.Machine
end

