-- ==== Sys2Proof/Laws/Convert.lean ====
section
/-! SUPPORT. What the encoder and the decoder answer, one lemma per branch of 40_convert.md R66 and R70, over the fields as
numbers; later proofs cite these and do not unfold `encodeCore` and `decodeCore`. -/

namespace Sys2Proof.Machine

variable (x : Single) (h : Half)

/-! ## Encoder (40_convert.md R66) -/

theorem encodeCore_nan (hE : (singleExp x).toNat = 255) (hM : (singleMant x).toNat ≠ 0) :
    encodeCore x = (halfNan (singleSign x), .none) := by
  simp [encodeCore, hE, hM]

theorem encodeCore_infinity (hE : (singleExp x).toNat = 255) (hM : (singleMant x).toNat = 0) :
    encodeCore x = (halfInfinity (singleSign x), .none) := by
  simp [encodeCore, hE, hM]

theorem encodeCore_zero (hE : (singleExp x).toNat = 0) (hM : (singleMant x).toNat = 0) :
    encodeCore x = (halfZero (singleSign x), .none) := by
  simp [encodeCore, hE, hM]

theorem encodeCore_subnormal (hE : (singleExp x).toNat = 0) (hM : (singleMant x).toNat ≠ 0) :
    encodeCore x = (halfZero (singleSign x), .underflow) := by
  simp [encodeCore, hE, hM]

/-- The re-biased exponent of a normal operand is `E - 112` (40_convert.md R66). -/
theorem encodeCore_normal (h0 : (singleExp x).toNat ≠ 0) (h1 : (singleExp x).toNat ≠ 255) :
    encodeCore x =
      if ((singleExp x).toNat : Int) - 112 ≥ 31 then (halfInfinity (singleSign x), .overflow)
      else if ((singleExp x).toNat : Int) - 112 ≥ 1 then
        encodeNormal (singleSign x) (2 ^ 23 + (singleMant x).toNat) (((singleExp x).toNat : Int) - 112)
      else encodeSubnormal (singleSign x) (2 ^ 23 + (singleMant x).toNat) (((singleExp x).toNat : Int) - 112) := by
  have e : ((singleExp x).toNat : Int) - Config.biasF + Config.biasH = ((singleExp x).toNat : Int) - 112 := by
    simp only [Config.biasF, Config.biasH]; omega
  unfold encodeCore
  simp only [h1, h0, false_and, if_false, e]

theorem encodeCore_overflow (h0 : 143 ≤ (singleExp x).toNat) (h1 : (singleExp x).toNat ≤ 254) :
    encodeCore x = (halfInfinity (singleSign x), .overflow) := by
  rw [encodeCore_normal x (by omega) (by omega), if_pos (by omega)]

theorem encodeCore_inRange (h0 : 113 ≤ (singleExp x).toNat) (h1 : (singleExp x).toNat ≤ 142) :
    encodeCore x = encodeNormal (singleSign x) (2 ^ 23 + (singleMant x).toNat) (((singleExp x).toNat : Int) - 112) := by
  rw [encodeCore_normal x (by omega) (by omega), if_neg (by omega), if_pos (by omega)]

theorem encodeCore_small (h0 : 1 ≤ (singleExp x).toNat) (h1 : (singleExp x).toNat ≤ 112) :
    encodeCore x = encodeSubnormal (singleSign x) (2 ^ 23 + (singleMant x).toNat) (((singleExp x).toNat : Int) - 112) := by
  rw [encodeCore_normal x (by omega) (by omega), if_neg (by omega), if_neg (by omega)]

/-- The subnormal path over numbers: the total shift is `126 - E` (40_convert.md R65: `14 - e16`). -/
theorem encodeCore_small_eq (h0 : 1 ≤ (singleExp x).toNat) (h1 : (singleExp x).toNat ≤ 112) :
    encodeCore x =
      if rne (2 ^ 23 + (singleMant x).toNat) (126 - (singleExp x).toNat) = 0 then (halfZero (singleSign x), .underflow)
      else (singleSign x ++ BitVec.ofNat 15 (rne (2 ^ 23 + (singleMant x).toNat) (126 - (singleExp x).toNat)), .none) := by
  have e : (14 - (((singleExp x).toNat : Int) - 112)).toNat = 126 - (singleExp x).toNat := by omega
  rw [encodeCore_small x h0 h1, encodeSubnormal, e]

/-! ## Decoder (40_convert.md R70) -/

theorem decodeCore_special (hE : (halfExp h).toNat = 31) :
    decodeCore h = packSingle (halfSign h) 0xFF#8 (halfMant h ++ 0#13) := by
  simp [decodeCore, hE]

theorem decodeCore_zero (hE : (halfExp h).toNat = 0) (hM : halfMant h = 0) :
    decodeCore h = packSingle (halfSign h) 0#8 0#23 := by
  simp [decodeCore, hE, hM]

theorem decodeCore_subnormal (hE : (halfExp h).toNat = 0) (hM : halfMant h ≠ 0) :
    decodeCore h = decodeSubnormal (halfSign h) (halfMant h).toNat := by
  unfold decodeCore
  rw [if_neg (by omega), if_pos hE, if_neg hM]

theorem decodeCore_normal (h0 : (halfExp h).toNat ≠ 0) (h1 : (halfExp h).toNat ≠ 31) :
    decodeCore h = packSingle (halfSign h) (BitVec.ofNat 8 ((halfExp h).toNat + 112)) (halfMant h ++ 0#13) := by
  have e : ((halfExp h).toNat : Int) - Config.biasH + Config.biasF = (((halfExp h).toNat + 112 : Nat) : Int) := by
    simp only [Config.biasF, Config.biasH]; omega
  unfold decodeCore
  simp only [h1, h0, if_false, e, BitVec.ofInt_natCast]

end Sys2Proof.Machine
end

