-- ==== Sys2Proof/Laws/State.lean ====
section
/-! SUPPORT. The state's fields after each update, true by unfolding, so that no later proof unfolds a record update. -/

namespace Sys2Proof.Machine

variable (s : State)

/-! ## respond -/

@[simp] theorem State.respond_params (r : Response) : (s.respond r).params = s.params := rfl
@[simp] theorem State.respond_requesters (r : Response) : (s.respond r).requesters = s.requesters := rfl
@[simp] theorem State.respond_schedule (r : Response) : (s.respond r).schedule = s.schedule := rfl
@[simp] theorem State.respond_resp (r : Response) : (s.respond r).resp = some r := rfl
@[simp] theorem State.respond_buffers (r : Response) : (s.respond r).buffers = s.buffers := rfl
@[simp] theorem State.respond_streams (r : Response) : (s.respond r).streams = s.streams := rfl
@[simp] theorem State.respond_buffer (r : Response) (k : Handle) : (s.respond r).buffer k = s.buffer k := rfl
@[simp] theorem State.respond_stream (r : Response) (k : Handle) : (s.respond r).stream k = s.stream k := rfl

/-! ## idle -/

@[simp] theorem State.idle_params : s.idle.params = s.params := rfl
@[simp] theorem State.idle_requesters : s.idle.requesters = s.requesters := rfl
@[simp] theorem State.idle_schedule : s.idle.schedule = s.schedule := rfl
@[simp] theorem State.idle_resp : s.idle.resp = none := rfl
@[simp] theorem State.idle_buffers : s.idle.buffers = s.buffers := rfl
@[simp] theorem State.idle_streams : s.idle.streams = s.streams := rfl
@[simp] theorem State.idle_buffer (k : Handle) : s.idle.buffer k = s.buffer k := rfl
@[simp] theorem State.idle_stream (k : Handle) : s.idle.stream k = s.stream k := rfl

/-! ## setBuffer -/

@[simp] theorem State.setBuffer_params (h : Handle) (b : Buffer) : (s.setBuffer h b).params = s.params := rfl
@[simp] theorem State.setBuffer_requesters (h : Handle) (b : Buffer) : (s.setBuffer h b).requesters = s.requesters := rfl
@[simp] theorem State.setBuffer_schedule (h : Handle) (b : Buffer) : (s.setBuffer h b).schedule = s.schedule := rfl
@[simp] theorem State.setBuffer_resp (h : Handle) (b : Buffer) : (s.setBuffer h b).resp = s.resp := rfl
@[simp] theorem State.setBuffer_buffers (h : Handle) (b : Buffer) : (s.setBuffer h b).buffers = Table.set Buffer.empty s.buffers h b := rfl
@[simp] theorem State.setBuffer_streams (h : Handle) (b : Buffer) : (s.setBuffer h b).streams = s.streams := rfl
@[simp] theorem State.setBuffer_stream (h : Handle) (b : Buffer) (k : Handle) : (s.setBuffer h b).stream k = s.stream k := rfl

/-! ## setStream -/

@[simp] theorem State.setStream_params (h : Handle) (st : Stream) : (s.setStream h st).params = s.params := rfl
@[simp] theorem State.setStream_requesters (h : Handle) (st : Stream) : (s.setStream h st).requesters = s.requesters := rfl
@[simp] theorem State.setStream_schedule (h : Handle) (st : Stream) : (s.setStream h st).schedule = s.schedule := rfl
@[simp] theorem State.setStream_resp (h : Handle) (st : Stream) : (s.setStream h st).resp = s.resp := rfl
@[simp] theorem State.setStream_buffers (h : Handle) (st : Stream) : (s.setStream h st).buffers = s.buffers := rfl
@[simp] theorem State.setStream_streams (h : Handle) (st : Stream) : (s.setStream h st).streams = Table.set (Stream.fresh s.params.streamCap) s.streams h st := rfl
@[simp] theorem State.setStream_buffer (h : Handle) (st : Stream) (k : Handle) : (s.setStream h st).buffer k = s.buffer k := rfl

/-! ## accept -/

@[simp] theorem State.accept_params (r : Nat) : (s.accept r).params = s.params := rfl
@[simp] theorem State.accept_requesters (r : Nat) : (s.accept r).requesters = s.requesters.modify r Requester.advance := rfl
@[simp] theorem State.accept_schedule (r : Nat) : (s.accept r).schedule = s.schedule.tail := rfl
@[simp] theorem State.accept_resp (r : Nat) : (s.accept r).resp = s.resp := rfl
@[simp] theorem State.accept_buffers (r : Nat) : (s.accept r).buffers = s.buffers := rfl
@[simp] theorem State.accept_streams (r : Nat) : (s.accept r).streams = s.streams := rfl
@[simp] theorem State.accept_buffer (r : Nat) (k : Handle) : (s.accept r).buffer k = s.buffer k := rfl
@[simp] theorem State.accept_stream (r : Nat) (k : Handle) : (s.accept r).stream k = s.stream k := rfl

/-! ## deliver -/

@[simp] theorem State.deliver_params (r : Nat) : (s.deliver r).params = s.params := rfl
@[simp] theorem State.deliver_requesters (r : Nat) : (s.deliver r).requesters = s.requesters.modify r (fun q => q.receive s.resp) := rfl
@[simp] theorem State.deliver_schedule (r : Nat) : (s.deliver r).schedule = s.schedule := rfl
@[simp] theorem State.deliver_resp (r : Nat) : (s.deliver r).resp = s.resp := rfl
@[simp] theorem State.deliver_buffers (r : Nat) : (s.deliver r).buffers = s.buffers := rfl
@[simp] theorem State.deliver_streams (r : Nat) : (s.deliver r).streams = s.streams := rfl
@[simp] theorem State.deliver_buffer (r : Nat) (k : Handle) : (s.deliver r).buffer k = s.buffer k := rfl
@[simp] theorem State.deliver_stream (r : Nat) (k : Handle) : (s.deliver r).stream k = s.stream k := rfl

/-! ## submit -/

@[simp] theorem State.submit_params (r : Nat) (program : List Request) : (s.submit r program).params = s.params := rfl
@[simp] theorem State.submit_requesters (r : Nat) (program : List Request) : (s.submit r program).requesters = s.requesters.modify r (fun q => { q with pending := q.pending ++ program }) := rfl
@[simp] theorem State.submit_schedule (r : Nat) (program : List Request) : (s.submit r program).schedule = s.schedule := rfl
@[simp] theorem State.submit_resp (r : Nat) (program : List Request) : (s.submit r program).resp = s.resp := rfl
@[simp] theorem State.submit_buffers (r : Nat) (program : List Request) : (s.submit r program).buffers = s.buffers := rfl
@[simp] theorem State.submit_streams (r : Nat) (program : List Request) : (s.submit r program).streams = s.streams := rfl
@[simp] theorem State.submit_buffer (r : Nat) (program : List Request) (k : Handle) : (s.submit r program).buffer k = s.buffer k := rfl
@[simp] theorem State.submit_stream (r : Nat) (program : List Request) (k : Handle) : (s.submit r program).stream k = s.stream k := rfl

/-! ## submitNext -/

@[simp] theorem State.submitNext_params (q : Request) : (s.submitNext q).params = s.params := rfl
@[simp] theorem State.submitNext_schedule (q : Request) : (s.submitNext q).schedule = 0 :: s.schedule := rfl
@[simp] theorem State.submitNext_resp (q : Request) : (s.submitNext q).resp = s.resp := rfl
@[simp] theorem State.submitNext_buffers (q : Request) : (s.submitNext q).buffers = s.buffers := rfl
@[simp] theorem State.submitNext_streams (q : Request) : (s.submitNext q).streams = s.streams := rfl
@[simp] theorem State.submitNext_buffer (q : Request) (k : Handle) : (s.submitNext q).buffer k = s.buffer k := rfl
@[simp] theorem State.submitNext_stream (q : Request) (k : Handle) : (s.submitNext q).stream k = s.stream k := rfl

/-! ## Requesters -/

@[simp] theorem Requester.advance_pending (q : Requester) : q.advance.pending = q.pending.tail := rfl
@[simp] theorem Requester.advance_responses (q : Requester) : q.advance.responses = q.responses := rfl
@[simp] theorem Requester.receive_pending (q : Requester) (r : Option Response) : (q.receive r).pending = q.pending := rfl
@[simp] theorem Requester.receive_responses (q : Requester) (r : Option Response) :
    (q.receive r).responses = q.responses ++ r.toList := rfl

/-! ## onNext -/

@[simp] theorem onNext_next (f : State → State) : onNext f (.next s) = .next (f s) := rfl
@[simp] theorem onNext_fault (f : State → State) (r : Fault) : onNext f (.fault r) = .fault r := rfl
@[simp] theorem onNext_refused (f : State → State) (r : Refusal) : onNext f (.refused r) = .refused r := rfl

end Sys2Proof.Machine
end

