-- ==== Sys2Proof/Laws/Table.lean ====
section
/-! SUPPORT. The laws of tables: read after write, the canonical form is kept, and equal tables are equal data. -/

namespace Sys2Proof.Machine

variable {α : Type}

/-- The numbers of a rising table rise from its head on. -/
theorem Table.rising_cons (i : Nat) (v : α) (rest : Table α) :
    Table.rising ((i, v) :: rest) = true ↔ (∀ e ∈ rest, i < e.1) ∧ Table.rising rest = true := by
  simp [Table.rising]

/-- Below every listed number, a table holds its default. -/
theorem Table.get_below (d : α) (t : Table α) (k : Nat) (h : ∀ e ∈ t, k < e.1) : Table.get d t k = d := by
  induction t with
  | nil => rfl
  | cons e rest ih =>
    obtain ⟨i, v⟩ := e
    have hi : k < i := h (i, v) (by simp)
    rw [Table.get, if_neg (by omega)]
    exact ih (fun e he => h e (by simp [he]))

/-- What a canonical table holds is listed, or its default. -/
theorem Table.get_mem (d : α) (t : Table α) (k : Nat) : Table.get d t k = d ∨ (k, Table.get d t k) ∈ t := by
  induction t with
  | nil => exact .inl rfl
  | cons c rest ih =>
    obtain ⟨i, v⟩ := c
    by_cases hk : k = i
    · subst hk; exact .inr (by simp [Table.get])
    · simp only [Table.get, if_neg hk, List.mem_cons]
      rcases ih with h | h
      · exact .inl h
      · exact .inr (.inr h)

variable [DecidableEq α]

/-- The numbers listed after a write are those listed before, or the one written. -/
theorem Table.mem_set {d : α} {t : Table α} {k : Nat} {v : α} {e : Nat × α} (h : e ∈ Table.set d t k v) :
    e ∈ t ∨ (e = (k, v) ∧ v ≠ d) := by
  induction t with
  | nil => simp only [Table.set] at h; split at h <;> simp_all
  | cons c rest ih =>
    obtain ⟨i, w⟩ := c
    simp only [Table.set] at h
    split_ifs at h <;> simp_all <;> tauto

/-- A write keeps the numbers rising. -/
theorem Table.rising_set (d : α) (t : Table α) (k : Nat) (v : α) (h : Table.rising t = true) :
    Table.rising (Table.set d t k v) = true := by
  induction t with
  | nil => simp only [Table.set]; split <;> simp [Table.rising]
  | cons c rest ih =>
    obtain ⟨i, w⟩ := c
    obtain ⟨hlt, hrest⟩ := (Table.rising_cons i w rest).1 h
    simp only [Table.set]
    split
    · rename_i hk
      split
      · exact h
      · refine (Table.rising_cons k v _).2 ⟨fun e he => ?_, h⟩
        rcases List.mem_cons.1 he with rfl | he
        · exact hk
        · exact lt_trans hk (hlt e he)
    · split
      · rename_i hk
        split
        · exact hrest
        · exact (Table.rising_cons k v rest).2 ⟨fun e he => hk ▸ hlt e he, hrest⟩
      · refine (Table.rising_cons i w _).2 ⟨fun e he => ?_, ih hrest⟩
        rcases Table.mem_set he with he | ⟨rfl, -⟩
        · exact hlt e he
        · simp only; omega

/-- The canonical form, as propositions. -/
theorem Table.wf_iff (d : α) (t : Table α) :
    Table.wf d t = true ↔ Table.rising t = true ∧ ∀ e ∈ t, e.2 ≠ d := by
  simp [Table.wf]

/-- A write keeps the canonical form. -/
theorem Table.wf_set (d : α) (t : Table α) (k : Nat) (v : α) (h : Table.wf d t = true) :
    Table.wf d (Table.set d t k v) = true := by
  obtain ⟨hr, hd⟩ := (Table.wf_iff d t).1 h
  refine (Table.wf_iff d _).2 ⟨Table.rising_set d t k v hr, fun e he => ?_⟩
  rcases Table.mem_set he with he | ⟨rfl, hv⟩
  · exact hd e he
  · exact hv

/-- Read after write: at the number written the value written, everywhere else what was there. -/
theorem Table.get_set (d : α) (t : Table α) (k j : Nat) (v : α) (h : Table.rising t = true) :
    Table.get d (Table.set d t k v) j = if j = k then v else Table.get d t j := by
  induction t with
  | nil => by_cases hv : v = d <;> simp [Table.set, Table.get, hv]
  | cons c rest ih =>
    obtain ⟨i, w⟩ := c
    obtain ⟨hlt, hrest⟩ := (Table.rising_cons i w rest).1 h
    have below (n : Nat) (hn : n ≤ i) : Table.get d rest n = d :=
      Table.get_below d rest n (fun e he => lt_of_le_of_lt hn (hlt e he))
    simp only [Table.set]
    by_cases hki : k < i
    · by_cases hv : v = d
      · by_cases hj : j = k
        · subst hj
          have hji : j ≠ i := by omega
          simp [hki, hv, Table.get, hji, below j hki.le]
        · simp [hki, hv, hj]
      · by_cases hj : j = k <;> simp [hki, hv, hj, Table.get]
    · by_cases hk : k = i
      · subst hk
        by_cases hv : v = d
        · by_cases hj : j = k
          · subst hj; simp [hv, below j le_rfl]
          · simp [hv, hj, Table.get]
        · by_cases hj : j = k <;> simp [hv, hj, Table.get]
      · by_cases hj : j = i
        · subst hj
          simp [hki, hk, Table.get, Ne.symm hk]
        · simp [hki, hk, Table.get, hj, ih hrest]

/-- Two tables in the canonical form that hold the same everywhere are the same data. -/
theorem Table.ext (d : α) (t u : Table α) (ht : Table.wf d t = true) (hu : Table.wf d u = true)
    (h : ∀ k, Table.get d t k = Table.get d u k) : t = u := by
  induction t generalizing u with
  | nil =>
    cases u with
    | nil => rfl
    | cons c rest =>
      have hc := ((Table.wf_iff d _).1 hu).2 c (by simp)
      have := h c.1
      simp [Table.get] at this
      exact absurd this.symm hc
  | cons c rest ih =>
    obtain ⟨i, v⟩ := c
    obtain ⟨htr, htd⟩ := (Table.wf_iff d _).1 ht
    obtain ⟨hlt, hrest⟩ := (Table.rising_cons i v rest).1 htr
    have hv : v ≠ d := htd (i, v) (by simp)
    cases u with
    | nil =>
      have := h i
      simp [Table.get] at this
      exact absurd this hv
    | cons c' rest' =>
      obtain ⟨j, w⟩ := c'
      obtain ⟨hur, hud⟩ := (Table.wf_iff d _).1 hu
      obtain ⟨hlt', hrest'⟩ := (Table.rising_cons j w rest').1 hur
      have hw : w ≠ d := hud (j, w) (by simp)
      have hij : i = j := by
        rcases lt_trichotomy i j with hij | hij | hij
        · have := h i
          rw [Table.get_below d ((j, w) :: rest') i (by
            intro e he
            rcases List.mem_cons.1 he with rfl | he
            · exact hij
            · exact lt_trans hij (hlt' e he))] at this
          simp [Table.get] at this
          exact absurd this hv
        · exact hij
        · have := h j
          rw [Table.get_below d ((i, v) :: rest) j (by
            intro e he
            rcases List.mem_cons.1 he with rfl | he
            · exact hij
            · exact lt_trans hij (hlt e he))] at this
          simp [Table.get] at this
          exact absurd this.symm hw
      subst hij
      have hvw : v = w := by simpa [Table.get] using h i
      subst hvw
      congr 1
      refine ih rest' ?_ ?_ (fun k => ?_)
      · exact (Table.wf_iff d _).2 ⟨hrest, fun e he => htd e (by simp [he])⟩
      · exact (Table.wf_iff d _).2 ⟨hrest', fun e he => hud e (by simp [he])⟩
      · by_cases hk : k = i
        · subst hk
          rw [Table.get_below d rest k hlt, Table.get_below d rest' k hlt']
        · simpa [Table.get, hk] using h k

/-- Writing back what a number holds changes nothing. -/
theorem Table.set_get_self (d : α) (t : Table α) (k : Nat) (h : Table.wf d t = true) :
    Table.set d t k (Table.get d t k) = t := by
  refine Table.ext d _ _ (Table.wf_set d t k _ h) h (fun j => ?_)
  rw [Table.get_set d t k j _ ((Table.wf_iff d t).1 h).1]
  split
  · simp_all
  · rfl

/-- Writes at two numbers commute. -/
theorem Table.set_comm (d : α) (t : Table α) (k j : Nat) (v w : α) (hkj : k ≠ j) (h : Table.wf d t = true) :
    Table.set d (Table.set d t k v) j w = Table.set d (Table.set d t j w) k v := by
  have hr := ((Table.wf_iff d t).1 h).1
  refine Table.ext d _ _ (Table.wf_set d _ j w (Table.wf_set d t k v h))
    (Table.wf_set d _ k v (Table.wf_set d t j w h)) (fun n => ?_)
  rw [Table.get_set d _ j n w (Table.rising_set d t k v hr), Table.get_set d t k n v hr,
    Table.get_set d _ k n v (Table.rising_set d t j w hr), Table.get_set d t j n w hr]
  split <;> split <;> simp_all

/-! ## Bytes -/

/-- Read after write. -/
theorem Memory.read_write (m : Memory) (i j : Nat) (b : Byte) (h : Memory.wf m = true) :
    (m.write i b).read j = if j = i then b else m.read j :=
  Table.get_set 0 m i j b ((Table.wf_iff 0 m).1 h).1

/-- A write keeps the canonical form. -/
theorem Memory.wf_write (m : Memory) (i : Nat) (b : Byte) (h : Memory.wf m = true) : Memory.wf (m.write i b) = true :=
  Table.wf_set 0 m i b h

/-- Writing a list of bytes keeps the canonical form. -/
theorem Memory.wf_writeList (m : Memory) (start : Nat) (bytes : List Byte) (h : Memory.wf m = true) :
    Memory.wf (m.writeList start bytes) = true := by
  induction bytes generalizing m start with
  | nil => exact h
  | cons b rest ih => exact ih _ _ (Memory.wf_write m start b h)

/-- Bytes in the canonical form that read the same everywhere are the same data. -/
theorem Memory.ext (m n : Memory) (hm : Memory.wf m = true) (hn : Memory.wf n = true)
    (h : ∀ i, m.read i = n.read i) : m = n :=
  Table.ext 0 m n hm hn h

end Sys2Proof.Machine
end

