-- ==== Sys2Proof/Laws/Ops.lean ====
section
/-! SUPPORT. What each shared operation does: the storage a handle names after a write, which request a step takes, what the
stream operations make of a stream, and that each keeps the canonical form. -/

namespace Sys2Proof.Machine

/-! ## Caller storage -/

/-- The canonical form of the storage, as propositions. -/
theorem State.wf_iff (s : State) :
    s.wf = true ↔
      s.requesters ≠ [] ∧ (Table.wf Buffer.empty s.buffers = true ∧ ∀ c ∈ s.buffers, c.2.wf = true) ∧
        (Table.wf (Stream.fresh s.params.streamCap) s.streams = true ∧ ∀ c ∈ s.streams, c.2.wf = true) := by
  simp [State.wf, and_assoc]

/-- The stream a handle names after a write: the one written, or what was there. -/
theorem State.stream_setStream (s : State) (h k : Handle) (st : Stream) (hs : s.wf = true) :
    (s.setStream h st).stream k = if k = h then st else s.stream k :=
  Table.get_set _ _ _ _ _ ((Table.wf_iff _ _).1 ((State.wf_iff s).1 hs).2.2.1).1

/-- The buffer a handle names after a requester places one: that one, or what was there. -/
theorem State.buffer_setBuffer (s : State) (h k : Handle) (b : Buffer) (hs : s.wf = true) :
    (s.setBuffer h b).buffer k = if k = h then b else s.buffer k :=
  Table.get_set _ _ _ _ _ ((Table.wf_iff _ _).1 ((State.wf_iff s).1 hs).2.1.1).1

/-- Writing a stream back changes nothing. -/
theorem State.setStream_self (s : State) (h : Handle) (hs : s.wf = true) : s.setStream h (s.stream h) = s := by
  have := Table.set_get_self _ _ h ((State.wf_iff s).1 hs).2.2.1
  simp only [State.setStream, State.stream, this]

/-- Writes to two streams commute. -/
theorem State.setStream_comm (s : State) (h k : Handle) (st st' : Stream) (hk : h ≠ k) (hs : s.wf = true) :
    (s.setStream h st).setStream k st' = (s.setStream k st').setStream h st := by
  have := Table.set_comm _ s.streams h k st st' hk ((State.wf_iff s).1 hs).2.2.1
  simp only [State.setStream, this]

/-- Every stream of canonical storage is canonical. -/
theorem State.wf_stream (s : State) (h : Handle) (hs : s.wf = true) : (s.stream h).wf = true := by
  rcases Table.get_mem (Stream.fresh s.params.streamCap) s.streams h with he | he
  · rw [State.stream, he]; rfl
  · exact ((State.wf_iff s).1 hs).2.2.2 _ he

/-- Every buffer of canonical storage is canonical. -/
theorem State.wf_buffer (s : State) (h : Handle) (hs : s.wf = true) : (s.buffer h).wf = true := by
  rcases Table.get_mem Buffer.empty s.buffers h with he | he
  · rw [State.buffer, he]; rfl
  · exact ((State.wf_iff s).1 hs).2.1.2 _ he

/-- Writing a canonical stream keeps the canonical form. -/
theorem State.wf_setStream (s : State) (h : Handle) (st : Stream) (hs : s.wf = true) (hst : st.wf = true) :
    (s.setStream h st).wf = true := by
  obtain ⟨hq, hb, ht, hw⟩ := (State.wf_iff s).1 hs
  refine (State.wf_iff _).2 ⟨hq, hb, Table.wf_set _ _ _ _ ht, fun c hc => ?_⟩
  rcases Table.mem_set hc with hc | ⟨rfl, -⟩
  · exact hw c hc
  · exact hst

/-- Placing a canonical buffer keeps the canonical form. -/
theorem State.wf_setBuffer (s : State) (h : Handle) (b : Buffer) (hs : s.wf = true) (hb : b.wf = true) :
    (s.setBuffer h b).wf = true := by
  obtain ⟨hq, ⟨ht, hw⟩, hst⟩ := (State.wf_iff s).1 hs
  refine (State.wf_iff _).2 ⟨hq, ⟨Table.wf_set _ _ _ _ ht, fun c hc => ?_⟩, hst⟩
  rcases Table.mem_set hc with hc | ⟨rfl, -⟩
  · exact hw c hc
  · exact hb

@[simp] theorem State.wf_respond (s : State) (r : Response) : (s.respond r).wf = s.wf := rfl
@[simp] theorem State.wf_idle (s : State) : s.idle.wf = s.wf := rfl

/-- The canonical form says of the requesters only that there is one. -/
theorem State.wf_modify (s : State) (r : Nat) (f : Requester → Requester) (sched : List Nat) :
    ({ s with requesters := s.requesters.modify r f, schedule := sched } : State).wf = s.wf := by
  have : (s.requesters.modify r f).isEmpty = s.requesters.isEmpty := by
    rw [Bool.eq_iff_iff, List.isEmpty_iff_length_eq_zero, List.isEmpty_iff_length_eq_zero, List.length_modify]
  simp only [State.wf, this]

@[simp] theorem State.wf_accept (s : State) (r : Nat) : (s.accept r).wf = s.wf := State.wf_modify s r _ _
@[simp] theorem State.wf_deliver (s : State) (r : Nat) : (s.deliver r).wf = s.wf := State.wf_modify s r _ _

/-! ## What a requester does between steps -/

/-- The indexes listed after writing a list of bytes. -/
theorem Memory.mem_writeList {m : Memory} {start : Nat} {bytes : List Byte} {e : Nat × Byte}
    (h : e ∈ m.writeList start bytes) : e ∈ m ∨ (start ≤ e.1 ∧ e.1 < start + bytes.length) := by
  induction bytes generalizing m start with
  | nil => exact .inl h
  | cons b rest ih =>
    rcases ih h with h | h
    · rcases Table.mem_set h with h | ⟨rfl, -⟩
      · exact .inl h
      · exact .inr ⟨le_rfl, by simp⟩
    · exact .inr ⟨by omega, by simp only [List.length_cons]; omega⟩

/-- A buffer made of a list of bytes, of a length that `W_IDX` bits hold, holds no byte outside its length. -/
theorem Buffer.wf_ofBytes (bytes : List Byte) (h : bytes.length < 2 ^ 32) : (Buffer.ofBytes bytes).wf = true := by
  have len : (Buffer.ofBytes bytes).len.toNat = bytes.length := by
    simp [Buffer.ofBytes, BitVec.toNat_ofNat]
    omega
  simp only [Buffer.wf, len, Bool.and_eq_true, List.all_eq_true, decide_eq_true_eq]
  refine ⟨Memory.wf_writeList _ _ _ rfl, fun e he => ?_⟩
  rcases Memory.mem_writeList he with he | ⟨-, he⟩
  · cases he
  · omega

/-- A stream made of a list of bytes is canonical. -/
theorem Stream.wf_ofBytes (bytes : List Byte) (cap : Capacity) : (Stream.ofBytes bytes cap).wf = true :=
  Memory.wf_writeList _ _ _ rfl

/-- A read view of a canonical stream is canonical. -/
theorem Stream.wf_readView (st : Stream) (pos rlen : Nat) (cap : Capacity) : (st.readView pos rlen cap).wf = st.wf := rfl

/-- Opening a fresh stream keeps the canonical form. -/
theorem State.wf_openWriteStream (s : State) (h : Handle) (hs : s.wf = true) : (s.openWriteStream h).wf = true :=
  State.wf_setStream s h _ hs rfl

/-- Submitting requests keeps the canonical form. -/
@[simp] theorem State.wf_submit (s : State) (r : Nat) (program : List Request) : (s.submit r program).wf = s.wf :=
  State.wf_modify s r _ _

/-! ## Taking a request -/

/-- Changing one entry of a list, where it is known, is setting it. -/
theorem modify_eq_set_of_getElem? {α : Type} (l : List α) (r : Nat) (f : α → α) (p : α) (h : l[r]? = some p) :
    l.modify r f = l.set r (f p) := by
  apply List.ext_getElem?
  intro j
  rw [List.getElem?_modify, List.getElem?_set]
  by_cases hj : r = j
  · subst hj
    obtain ⟨hr, rfl⟩ := List.getElem?_eq_some_iff.1 h
    simp [hr]
  · simp [hj]

/-- The state with a request taken, where its requester is known. -/
theorem State.accept_eq (s : State) (r : Nat) (p : Requester) (h : s.requesters[r]? = some p) :
    s.accept r = { s with requesters := s.requesters.set r p.advance, schedule := s.schedule.tail } := by
  rw [State.accept, modify_eq_set_of_getElem? _ _ _ _ h]

/-- The state with a response delivered, where its requester is known. -/
theorem State.deliver_eq (s : State) (r : Nat) (p : Requester) (h : s.requesters[r]? = some p) :
    s.deliver r = { s with requesters := s.requesters.set r (p.receive s.resp) } := by
  rw [State.deliver, modify_eq_set_of_getElem? _ _ _ _ h]

/-- A requester has a request pending. -/
theorem State.hasPending_iff (s : State) (r : Nat) :
    s.hasPending r = true ↔ ∃ p q rest, s.requesters[r]? = some p ∧ p.pending = q :: rest := by
  unfold State.hasPending
  cases h : s.requesters[r]? with
  | none => simp
  | some p => cases hp : p.pending <;> simp [hp]

/-- The first requester that has a request pending has one. -/
theorem State.first_hasPending (s : State) (r : Nat)
    (h : s.requesters.findIdx? (fun q => !q.pending.isEmpty) = some r) : s.hasPending r = true := by
  obtain ⟨hr, hp, -⟩ := List.findIdx?_eq_some_iff_getElem.1 h
  simp only [State.hasPending, List.getElem?_eq_getElem hr]
  exact hp

/-- The requester taken next has a request pending. -/
theorem State.nextRequester_hasPending (s : State) (r : Nat) (h : s.nextRequester = some r) : s.hasPending r = true := by
  unfold State.nextRequester at h
  split at h
  · exact s.first_hasPending r h
  · split at h
    · cases h; assumption
    · exact s.first_hasPending r h

/-- No requester is taken next exactly where none has a request pending. -/
theorem State.nextRequester_none (s : State) : s.nextRequester = none ↔ ∀ r, s.hasPending r = false := by
  have first : s.requesters.findIdx? (fun q => !q.pending.isEmpty) = none ↔ ∀ r, s.hasPending r = false := by
    rw [List.findIdx?_eq_none_iff]
    constructor
    · intro h r
      unfold State.hasPending
      cases hr : s.requesters[r]? with
      | none => rfl
      | some p => exact h p (List.mem_of_getElem? hr)
    · intro h p hp
      obtain ⟨r, hr, rfl⟩ := List.getElem_of_mem hp
      have := h r
      simpa only [State.hasPending, List.getElem?_eq_getElem hr] using this
  unfold State.nextRequester
  split
  · exact first
  · rename_i r _ _
    split
    · rename_i hp
      constructor
      · intro h; cases h
      · intro h; rw [h r] at hp; cases hp
    · exact first

/-- The request a step takes is the oldest pending one of the requester taken next. -/
theorem State.fetch_some (s : State) (r : Nat) (q : Request) :
    s.fetch = some (r, q) ↔
      s.nextRequester = some r ∧ ∃ p rest, s.requesters[r]? = some p ∧ p.pending = q :: rest := by
  unfold State.fetch State.headRequest
  cases hn : s.nextRequester with
  | none => simp
  | some r' =>
    obtain ⟨p, q', rest, hp, hq⟩ := (s.hasPending_iff r').1 (s.nextRequester_hasPending r' hn)
    simp only [hp, hq, List.head?_cons, Option.some.injEq, Prod.mk.injEq]
    constructor
    · rintro ⟨rfl, rfl⟩; exact ⟨rfl, p, rest, hp, hq⟩
    · rintro ⟨rfl, p', rest', hp', hq'⟩
      rw [hp] at hp'
      cases hp'
      rw [hq] at hq'
      cases hq'
      exact ⟨rfl, rfl⟩

/-- A step takes no request exactly where none is pending. -/
theorem State.fetch_none (s : State) : s.fetch = none ↔ ∀ r, s.hasPending r = false := by
  rw [← s.nextRequester_none]
  unfold State.fetch State.headRequest
  cases hn : s.nextRequester with
  | none => simp
  | some r =>
    obtain ⟨p, q, rest, hp, hq⟩ := (s.hasPending_iff r).1 (s.nextRequester_hasPending r hn)
    simp [hp, hq]

/-! ## Streams -/

/-- A write at the position keeps the canonical form. -/
theorem streamWrite_wf (st : Stream) (b : Byte) (h : st.wf = true) : (streamWrite st b).wf = true :=
  Memory.wf_write _ _ _ h

@[simp] theorem streamWrite_pos (st : Stream) (b : Byte) : (streamWrite st b).pos = st.pos + 1 := rfl
@[simp] theorem streamWrite_rlen (st : Stream) (b : Byte) : (streamWrite st b).rlen = st.rlen := rfl
@[simp] theorem streamWrite_cap (st : Stream) (b : Byte) : (streamWrite st b).cap = Capacity.pred st.cap := rfl

/-- What a written byte leaves of the stream's bytes. -/
theorem streamWrite_read (st : Stream) (b : Byte) (a : Nat) (h : st.wf = true) :
    (streamWrite st b).data.read a = if a = st.pos then b else st.data.read a :=
  Memory.read_write _ _ _ _ h

@[simp] theorem streamRead_fst (st : Stream) : (streamRead st).1 = st.data.read st.pos := rfl
@[simp] theorem streamRead_snd (st : Stream) : (streamRead st).2 = { st with pos := st.pos + 1 } := rfl

/-- All `WRS` does to a stream: nothing, one byte, or two bytes (41_serialize.md R79). -/
theorem wrsStream_cases (p : WrsFailWritten) (h : Half) (st : Stream) :
    (Capacity.below st.cap 2 = true ∧ ¬(p = .one ∧ st.cap = .bounded 1) ∧ wrsStream p h st = (st, .rangeError)) ∨
      (Capacity.below st.cap 2 = true ∧ (p = .one ∧ st.cap = .bounded 1) ∧
        wrsStream p h st = (streamWrite st (lowByte h), .rangeError)) ∨
      (Capacity.below st.cap 2 = false ∧
        wrsStream p h st = (streamWrite (streamWrite st (lowByte h)) (highByte h), .none)) := by
  unfold wrsStream
  cases hc : Capacity.below st.cap 2 with
  | false => simp
  | true => by_cases hp : p = .one ∧ st.cap = .bounded 1 <;> simp [hp]

/-- All `RDS` does to a stream: it moves the position (41_serialize.md R80). -/
theorem rdsStream_cases (p : RdsFailAdvance) (st : Stream) :
    (st.avail < 2 ∧
        rdsStream p st = ({ st with pos := st.pos + RdsFailAdvance.amount p st.avail }, Response.error .rangeError)) ∨
      (2 ≤ st.avail ∧
        rdsStream p st =
          ({ st with pos := st.pos + 2 },
            { err := 0, hOut := halfOfBytes (st.data.read st.pos) (st.data.read (st.pos + 1)) })) := by
  unfold rdsStream
  by_cases h : st.avail < 2
  · exact .inl ⟨h, by rw [if_pos h]⟩
  · exact .inr ⟨by omega, by rw [if_neg h]; rfl⟩

/-- `WRS` keeps a stream canonical. -/
theorem wrsStream_wf (p : WrsFailWritten) (h : Half) (st : Stream) (hst : st.wf = true) : (wrsStream p h st).1.wf = true := by
  rcases wrsStream_cases p h st with ⟨-, -, e⟩ | ⟨-, -, e⟩ | ⟨-, e⟩ <;> rw [e]
  · exact hst
  · exact streamWrite_wf _ _ hst
  · exact streamWrite_wf _ _ (streamWrite_wf _ _ hst)

/-- `RDS` keeps a stream canonical. -/
theorem rdsStream_wf (p : RdsFailAdvance) (st : Stream) (hst : st.wf = true) : (rdsStream p st).1.wf = true := by
  rcases rdsStream_cases p st with ⟨-, e⟩ | ⟨-, e⟩ <;> rw [e] <;> exact hst

/-- Writing a list of bytes leaves every byte below its start. -/
theorem Memory.read_writeList_lt (m : Memory) (start : Nat) (bytes : List Byte) (hm : Memory.wf m = true) (i : Nat)
    (hi : i < start) : (m.writeList start bytes).read i = m.read i := by
  induction bytes generalizing m start with
  | nil => rfl
  | cons b rest ih =>
    rw [Memory.writeList, ih _ _ (Memory.wf_write _ _ _ hm) (by omega), Memory.read_write _ _ _ _ hm,
      if_neg (by omega)]

/-- The bytes of a list, read back. -/
theorem Memory.read_writeList (m : Memory) (start : Nat) (bytes : List Byte) (hm : Memory.wf m = true) (i : Nat)
    (hi : i < bytes.length) : (m.writeList start bytes).read (start + i) = bytes[i] := by
  induction bytes generalizing m start i with
  | nil => simp at hi
  | cons b rest ih =>
    cases i with
    | zero =>
      rw [Memory.writeList, Memory.read_writeList_lt _ _ _ (Memory.wf_write _ _ _ hm) _ (by omega),
        Memory.read_write _ _ _ _ hm]
      simp
    | succ i =>
      have := ih (m.write start b) (start + 1) (Memory.wf_write _ _ _ hm) i (by simpa using hi)
      rw [Memory.writeList, show start + (i + 1) = start + 1 + i by omega, this]
      simp

end Sys2Proof.Machine
end

