-- ==== Sys2Proof/Laws/PerInstr.lean ====
section
/-! SUPPORT. A family of statements, one per operation: the requests that decode to it carry its select value in `op` and its
operands in the fields 30_encoding.md R51 names, whatever the other fields hold. -/

namespace Sys2Proof.Laws.Spelling

/-- The requests that decode to the operation are those with the select value and the operand fields its encoding has; the
fields it does not read are free (30_encoding.md R50, R51). -/
def Statement (i : Instr) : Prop :=
  ∀ r : Request, decode r = i ↔
    r.op = (encode i).op ∧ (readsX r.op = true → r.x = (encode i).x) ∧ (readsH r.op = true → r.h = (encode i).h) ∧
      (readsBuf r.op = true → r.buf = (encode i).buf ∧ r.offset = (encode i).offset) ∧
      (readsSt r.op = true → r.st = (encode i).st)

/-- Decoding, by select value. -/
theorem decode_eq (r : Request) :
    (r.op = 0b000#3 ∧ decode r = .enc r.x) ∨ (r.op = 0b001#3 ∧ decode r = .encs r.x) ∨
      (r.op = 0b010#3 ∧ decode r = .dec r.h) ∨ (r.op = 0b011#3 ∧ decode r = .tob r.h) ∨
      (r.op = 0b100#3 ∧ decode r = .fromb r.buf r.offset) ∨ (r.op = 0b101#3 ∧ decode r = .wrs r.h r.st) ∨
      (r.op = 0b110#3 ∧ decode r = .rds r.st) ∨ (r.op = 0b111#3 ∧ decode r = .reserved) := by
  obtain ⟨op, x, h, buf, offset, st⟩ := r
  have key : ∀ o : BitVec 3, o = 0 ∨ o = 1 ∨ o = 2 ∨ o = 3 ∨ o = 4 ∨ o = 5 ∨ o = 6 ∨ o = 7 := by decide
  rcases key op with rfl | rfl | rfl | rfl | rfl | rfl | rfl | rfl <;> simp [decode]

theorem enc (x : Single) : Statement (.enc x) := by
  intro r
  rcases decode_eq r with ⟨e, d⟩ | ⟨e, d⟩ | ⟨e, d⟩ | ⟨e, d⟩ | ⟨e, d⟩ | ⟨e, d⟩ | ⟨e, d⟩ | ⟨e, d⟩ <;>
    simp [d, e, encode, Request.ofOp, readsX, readsH, readsBuf, readsSt]

theorem encs (x : Single) : Statement (.encs x) := by
  intro r
  rcases decode_eq r with ⟨e, d⟩ | ⟨e, d⟩ | ⟨e, d⟩ | ⟨e, d⟩ | ⟨e, d⟩ | ⟨e, d⟩ | ⟨e, d⟩ | ⟨e, d⟩ <;>
    simp [d, e, encode, Request.ofOp, readsX, readsH, readsBuf, readsSt]

theorem dec (h : Half) : Statement (.dec h) := by
  intro r
  rcases decode_eq r with ⟨e, d⟩ | ⟨e, d⟩ | ⟨e, d⟩ | ⟨e, d⟩ | ⟨e, d⟩ | ⟨e, d⟩ | ⟨e, d⟩ | ⟨e, d⟩ <;>
    simp [d, e, encode, Request.ofOp, readsX, readsH, readsBuf, readsSt]

theorem tob (h : Half) : Statement (.tob h) := by
  intro r
  rcases decode_eq r with ⟨e, d⟩ | ⟨e, d⟩ | ⟨e, d⟩ | ⟨e, d⟩ | ⟨e, d⟩ | ⟨e, d⟩ | ⟨e, d⟩ | ⟨e, d⟩ <;>
    simp [d, e, encode, Request.ofOp, readsX, readsH, readsBuf, readsSt]

theorem fromb (buf : Handle) (offset : Index) : Statement (.fromb buf offset) := by
  intro r
  rcases decode_eq r with ⟨e, d⟩ | ⟨e, d⟩ | ⟨e, d⟩ | ⟨e, d⟩ | ⟨e, d⟩ | ⟨e, d⟩ | ⟨e, d⟩ | ⟨e, d⟩ <;>
    simp [d, e, encode, Request.ofOp, readsX, readsH, readsBuf, readsSt]

theorem wrs (h : Half) (st : Handle) : Statement (.wrs h st) := by
  intro r
  rcases decode_eq r with ⟨e, d⟩ | ⟨e, d⟩ | ⟨e, d⟩ | ⟨e, d⟩ | ⟨e, d⟩ | ⟨e, d⟩ | ⟨e, d⟩ | ⟨e, d⟩ <;>
    simp [d, e, encode, Request.ofOp, readsX, readsH, readsBuf, readsSt]

theorem rds (st : Handle) : Statement (.rds st) := by
  intro r
  rcases decode_eq r with ⟨e, d⟩ | ⟨e, d⟩ | ⟨e, d⟩ | ⟨e, d⟩ | ⟨e, d⟩ | ⟨e, d⟩ | ⟨e, d⟩ | ⟨e, d⟩ <;>
    simp [d, e, encode, Request.ofOp, readsX, readsH, readsBuf, readsSt]

theorem reserved : Statement .reserved := by
  intro r
  rcases decode_eq r with ⟨e, d⟩ | ⟨e, d⟩ | ⟨e, d⟩ | ⟨e, d⟩ | ⟨e, d⟩ | ⟨e, d⟩ | ⟨e, d⟩ | ⟨e, d⟩ <;>
    simp [d, e, encode, Request.ofOp, readsX, readsH, readsBuf, readsSt]

end Sys2Proof.Laws.Spelling
end

