-- ==== Sys2Proof/Laws/Step.lean ====
section
/-! SUPPORT. Everything an operation and a step can do, said once. -/

namespace Sys2Proof.Machine

/-- Everything an operation can do: it gives a response, and `WRS` and `RDS` also write the stream they name. -/
theorem exec_cases (i : Instr) (s : State) :
    (∃ r, exec i s = .next (s.respond r)) ∨
      (∃ h k, i = .wrs h k ∧
        exec i s = .next ((s.setStream k (wrsStream s.params.wrsFailWritten h (s.stream k)).1).respond
          { err := (wrsStream s.params.wrsFailWritten h (s.stream k)).2.code })) ∨
      (∃ k, i = .rds k ∧
        exec i s = .next ((s.setStream k (rdsStream s.params.rdsFailAdvance (s.stream k)).1).respond
          (rdsStream s.params.rdsFailAdvance (s.stream k)).2)) := by
  cases i with
  | enc x => exact .inl ⟨_, rfl⟩
  | encs x => exact .inl ⟨_, rfl⟩
  | dec h => exact .inl ⟨_, rfl⟩
  | tob h => exact .inl ⟨_, rfl⟩
  | fromb buf offset => exact .inl ⟨_, rfl⟩
  | wrs h st => exact .inr (.inl ⟨h, st, rfl, rfl⟩)
  | rds st => exact .inr (.inr ⟨st, rfl, rfl⟩)
  | reserved => exact .inl ⟨_, rfl⟩

/-- An operation that names no stream gives a response, which depends on the buffers alone. -/
theorem exec_off_streams (i : Instr) (h : streamOf i = none) :
    ∃ f : Table Buffer → Response, ∀ s, exec i s = .next (s.respond (f s.buffers)) := by
  cases i with
  | enc x => exact ⟨fun _ => _, fun _ => rfl⟩
  | encs x => exact ⟨fun _ => _, fun _ => rfl⟩
  | dec h => exact ⟨fun _ => _, fun _ => rfl⟩
  | tob h => exact ⟨fun _ => _, fun _ => rfl⟩
  | fromb buf offset => exact ⟨fun b => frombResponse (Table.get Buffer.empty b buf) offset, fun _ => rfl⟩
  | wrs h st => cases h
  | rds st => cases h
  | reserved => exact ⟨fun _ => _, fun _ => rfl⟩

/-- An operation that names a stream makes of that stream, and answers, what depends on that stream and the parameters
alone. -/
theorem exec_on_stream (i : Instr) (k : Handle) (p : Params) (h : streamOf i = some k) :
    ∃ f : Stream → Stream × Response, ∀ s, s.params = p →
      exec i s = .next ((s.setStream k (f (s.stream k)).1).respond (f (s.stream k)).2) := by
  cases i with
  | wrs x st =>
    cases h
    exact ⟨fun c => ((wrsStream p.wrsFailWritten x c).1, { err := (wrsStream p.wrsFailWritten x c).2.code }),
      fun s hs => by subst hs; rfl⟩
  | rds st =>
    cases h
    exact ⟨rdsStream p.rdsFailAdvance, fun s hs => by subst hs; rfl⟩
  | enc x => cases h
  | encs x => cases h
  | dec x => cases h
  | tob x => cases h
  | fromb buf offset => cases h
  | reserved => cases h

/-- What an operation leaves of everything that is not a stream or the response. -/
theorem exec_frame {i : Instr} {s t : State} (h : exec i s = .next t) :
    t.params = s.params ∧ t.requesters = s.requesters ∧ t.schedule = s.schedule ∧ t.buffers = s.buffers := by
  rcases exec_cases i s with ⟨r, e⟩ | ⟨x, k, -, e⟩ | ⟨k, -, e⟩ <;> rw [e] at h <;> cases h <;> simp

/-- Everything a step can do: it answers no request, or it answers the one it takes. -/
theorem step_cases {s t : State} (h : step s = .next t) :
    (s.fetch = none ∧ t = s.idle) ∨
      (∃ r q u, s.fetch = some (r, q) ∧ exec (decode q) (s.accept r) = .next u ∧ t = u.deliver r) := by
  unfold step at h
  cases hf : s.fetch with
  | none => rw [hf] at h; cases h; exact .inl ⟨rfl, rfl⟩
  | some rq =>
    obtain ⟨r, q⟩ := rq
    rw [hf] at h
    rcases exec_cases (decode q) (s.accept r) with ⟨ρ, e⟩ | ⟨x, k, -, e⟩ | ⟨k, -, e⟩ <;>
      (simp only [e, onNext_next] at h; cases h; exact .inr ⟨r, q, _, rfl, e, rfl⟩)

/-- A run of one step more, where the first step completes, on any machine. -/
theorem coreRun_succ (M : Host.Core) (n : Nat) (s t : M.State) (h : M.step s = .next t) : M.run (n + 1) s = M.run n t := by
  simp only [Host.Core.run, h]

/-- A run of one step more, where the first step completes, on this machine. -/
theorem run_succ_of_step {s t : State} (n : Nat) (h : step s = .next t) :
    Host.Core.run Sys2Proof.core (n + 1) s = Host.Core.run Sys2Proof.core n t :=
  coreRun_succ Sys2Proof.core n s t h

/-- Package an induction over runs once: what every step keeps, every run keeps. -/
theorem Reaches.keeps {P : State → Prop} (keep : ∀ s t, P s → step s = .next t → P t) {s t : State} (h : Reaches s t)
    (hs : P s) : P t := by
  induction h with
  | refl => exact hs
  | more _ hstep ih => exact keep _ _ ih hstep

end Sys2Proof.Machine
end

