-- ==== Sys2Proof/Tests/Slice0.lean ====
section
/-! SUPPORT. Tests: decoding from the table's words, well-formedness, one step of each operation on a small state, and for each
statement a witness of its hypotheses. Expected results are 95_test_vectors.md's, or read off the rule named. -/

namespace Sys2Proof.Tests

open Sys2Proof.Machine

/-! ## A small state -/

/-- A state with these parameters and this storage, one requester and nothing pending. -/
def small (p : Params) (buffers : Table Buffer) (streams : Table Machine.Stream) : State where
  params := p
  requesters := [{ pending := [], responses := [] }]
  schedule := []
  resp := none
  buffers := buffers
  streams := streams

/-- `RDS_FAIL_ADVANCE = 0`, `WRS_FAIL_WRITTEN = 0`, `STREAM_CAP` unbounded. -/
def stays : Params := ⟨.zero, .zero, .unbounded⟩

/-- `RDS_FAIL_ADVANCE = avail`, `WRS_FAIL_WRITTEN = 1`, `STREAM_CAP` unbounded. -/
def moves : Params := ⟨.avail, .one, .unbounded⟩

/-- The state with no storage. -/
def bare : State := small stays [] []

/-- The response an outcome carries. -/
def responseOf : Host.Outcome State Fault Refusal → Option Response
  | .next t => t.resp
  | .fault _ => none
  | .refused _ => none

/-- What an outcome leaves of a stream. -/
def streamAfter (k : Handle) : Host.Outcome State Fault Refusal → Option Machine.Stream
  | .next t => some (t.stream k)
  | .fault _ => none
  | .refused _ => none

/-! ## Well-formedness: an ill-formed term for each check -/

theorem test_wf_request : (Request.ofOp 0b110#3).wf = true ∧ (Request.ofOp 0b111#3).wf = false := by decide
theorem test_wf_instr : (Instr.rds 0).wf = true ∧ Instr.reserved.wf = false := by decide
theorem test_wf_memory_rises : Memory.wf [(1, 5), (2, 6)] = true ∧ Memory.wf [(2, 6), (1, 5)] = false := by decide
theorem test_wf_memory_zero : Memory.wf [(1, 0)] = false := by decide
theorem test_wf_buffer : Buffer.wf ⟨2, [(1, 5)]⟩ = true ∧ Buffer.wf ⟨2, [(2, 5)]⟩ = false := by decide
theorem test_wf_stream : Stream.wf ⟨[(7, 1)], 9, 0, .unbounded⟩ = true ∧ Stream.wf ⟨[(7, 0)], 9, 0, .unbounded⟩ = false := by
  decide
theorem test_wf_state : bare.wf = true ∧ ({ bare with requesters := [] } : State).wf = false ∧
    (small stays [(3, Buffer.empty)] []).wf = false ∧ (small stays [] [(3, Stream.fresh .unbounded)]).wf = false := by decide
theorem test_legal_response : Response.legal { err := 1, hOut := 7 } = true ∧ Response.legal { err := 2, hOut := 7 } = false ∧
    Response.legal { err := 1, fOut := 7 } = false ∧ Response.legal { err := 0, hOut := 7, fOut := 7 } = false := by decide

/-! ## Decoding: 30_encoding.md R50 -/

theorem test_decode_enc : decode ⟨0b000, 0x3F800000, 0, 0, 0, 0⟩ = .enc 0x3F800000 := by decide
theorem test_decode_encs : decode ⟨0b001, 0x477FF000, 0, 0, 0, 0⟩ = .encs 0x477FF000 := by decide
theorem test_decode_dec : decode ⟨0b010, 0, 0x3C00, 0, 0, 0⟩ = .dec 0x3C00 := by decide
theorem test_decode_tob : decode ⟨0b011, 0, 0x7C01, 0, 0, 0⟩ = .tob 0x7C01 := by decide
theorem test_decode_fromb : decode ⟨0b100, 0, 0, 6, 0xFFFFFFFF, 9⟩ = .fromb 6 0xFFFFFFFF := by decide
theorem test_decode_wrs : decode ⟨0b101, 0, 0xFC00, 6, 0, 9⟩ = .wrs 0xFC00 9 := by decide
theorem test_decode_rds : decode ⟨0b110, 0, 0xFC00, 6, 0, 9⟩ = .rds 9 := by decide
theorem test_decode_reserved : decode ⟨0b111, 1, 2, 3, 4, 5⟩ = .reserved := by decide
theorem test_decode_table_words :
    ([0, 1, 2, 3, 4, 5, 6, 7].map (decodeTableWord 8)) =
      [some (.enc 0), some (.encs 0), some (.dec 0), some (.tob 0), some (.fromb 0 0), some (.wrs 0 0), some (.rds 0),
        some .reserved] := by decide

/-! ## Operations: 95_test_vectors.md sections 3 and 4 -/

/-- `0x3FFFF000`: a tie with an odd kept part, and the carry into the exponent. -/
theorem test_enc_carry : responseOf (exec (.enc 0x3FFFF000) bare) = some { hOut := 0x4000 } := by decide
/-- `0x387BA882`: a subnormal result. -/
theorem test_enc_subnormal : responseOf (exec (.enc 0x387BA882) bare) = some { hOut := 0x03EF } := by decide
/-- `65520.0` raises PrecisionLoss in strict mode. -/
theorem test_encs_overflow : (responseOf (exec (.encs 0x477FF000) bare)).map (·.err) = some 1 := by decide
/-- just above `2^-25`: the smallest subnormal, no error. -/
theorem test_encs_smallest : responseOf (exec (.encs 0x33000001) bare) = some { hOut := 0x0001 } := by decide
/-- a subnormal half, normalized. -/
theorem test_dec_subnormal : responseOf (exec (.dec 0x003C) bare) = some { fOut := 0x36700000 } := by decide
/-- a NaN whose top mantissa bit is 0. -/
theorem test_dec_nan : responseOf (exec (.dec 0xFC01) bare) = some { fOut := 0xFF802000 } := by decide
theorem test_tob : responseOf (exec (.tob 0x7C01) bare) = some { bOut0 := 0x01, bOut1 := 0x7C } := by decide
/-- an odd offset, a NaN pattern unchanged. -/
theorem test_fromb_odd :
    responseOf (exec (.fromb 0 1) (small stays [(0, Buffer.ofBytes [0xAA, 0x01, 0x7C])] [])) = some { hOut := 0x7C01 } := by
  decide
/-- the sum is taken without wrap-around. -/
theorem test_fromb_no_wrap :
    responseOf (exec (.fromb 0 0xFFFFFFFF) (small stays [(0, Buffer.ofBytes [1, 2, 3, 4, 5, 6, 7, 8, 9, 10])] [])) =
      some { err := 2 } := by decide
/-- `pos = 5`, `cap = 2`. -/
theorem test_wrs_last_room :
    streamAfter 4 (exec (.wrs 0xABCD 4) (small stays [] [(4, ⟨[], 5, 0, .bounded 2⟩)])) =
      some ⟨[(5, 0xCD), (6, 0xAB)], 7, 0, .bounded 0⟩ := by decide
/-- `pos = 5`, `cap = 1`, under both values of `WRS_FAIL_WRITTEN`. -/
theorem test_wrs_one_byte_of_room :
    streamAfter 4 (exec (.wrs 0xABCD 4) (small stays [] [(4, ⟨[], 5, 0, .bounded 1⟩)])) = some ⟨[], 5, 0, .bounded 1⟩ ∧
    streamAfter 4 (exec (.wrs 0xABCD 4) (small moves [] [(4, ⟨[], 5, 0, .bounded 1⟩)])) =
      some ⟨[(5, 0xCD)], 6, 0, .bounded 0⟩ := by decide
theorem test_rds :
    responseOf (exec (.rds 4) (small stays [] [(4, Stream.ofBytes [0xCD, 0xAB] (.bounded 0))])) = some { hOut := 0xABCD } ∧
    (streamAfter 4 (exec (.rds 4) (small stays [] [(4, Stream.ofBytes [0xCD, 0xAB] (.bounded 0))]))).map (·.pos) = some 2 := by decide
/-- one byte remains, under both values of `RDS_FAIL_ADVANCE`. -/
theorem test_rds_one_byte_left :
    responseOf (exec (.rds 4) (small stays [] [(4, ⟨[(2, 0x7E)], 2, 3, .bounded 0⟩)])) = some { err := 2 } ∧
    streamAfter 4 (exec (.rds 4) (small stays [] [(4, ⟨[(2, 0x7E)], 2, 3, .bounded 0⟩)])) =
      some ⟨[(2, 0x7E)], 2, 3, .bounded 0⟩ ∧
    streamAfter 4 (exec (.rds 4) (small moves [] [(4, ⟨[(2, 0x7E)], 2, 3, .bounded 0⟩)])) =
      some ⟨[(2, 0x7E)], 3, 3, .bounded 0⟩ := by decide
theorem test_reserved : responseOf (exec .reserved bare) = some { err := 3 } := by decide

/-! ## Steps -/

/-- Two requesters; the schedule names the second, whose request is answered, and only it receives the response. -/
theorem test_step_schedule :
    step { bare with
        requesters := [⟨[encode (.tob 0x3C00)], []⟩, ⟨[encode (.dec 0x3C00), encode .reserved], []⟩], schedule := [1] } =
      .next { bare with
        requesters := [⟨[encode (.tob 0x3C00)], []⟩, ⟨[encode .reserved], [{ fOut := 0x3F800000 }]⟩]
        resp := some { fOut := 0x3F800000 } } := by rfl
/-- With nothing pending a step answers nothing. -/
theorem test_step_idle : step { bare with resp := some { err := 3 } } = .next bare := by rfl
/-- The reserved select, placed to be answered first after reset. -/
theorem test_step_fetch_word :
    responseOf (step (State.reset.withFetchWord 8 7)) = some { err := 3 } := by decide

/-! ## Programs: 30_encoding.md R49, R57 -/

theorem test_literal_decimal : (Literal.decimal true 25 1).bits = some 0xC0200000 ∧ (Literal.decimal false 1 1).bits = none := by
  decide
theorem test_literal_hex : (Literal.hex 0x3F800000).bits = some 0x3F800000 := by decide
theorem test_assemble :
    assemble [.enc (.decimal false 1 0), .wrs 0x4248 0] =
      some [⟨0b000, 0x3F800000, 0, 0, 0, 0⟩, ⟨0b101, 0, 0x4248, 0, 0, 0⟩] := by decide
theorem test_text :
    AsmLine.text (fun _ => "B") (fun _ => "S") (.enc (.hex 0x3F80000A)) = "ENC x=0x3F80000A" ∧
    AsmLine.text (fun _ => "B") (fun _ => "S") (.wrs 0xABCD 0) = "WRS h=0xABCD, st=S" ∧
    AsmLine.text (fun _ => "B") (fun _ => "S") (.fromb 0 4) = "FROMB buf=B, offset=4" := by decide

/-! ## Witnesses: for each statement with hypotheses, operands and a state that meet them, each clause at a boundary -/

theorem witness_RoundingIsToNearestEven :
    (1 ≤ 1 ∧ 1 ≠ rne 3 1 ∧ |(3 : ℤ) - rne 3 1 * 2 ^ 1| = |(3 : ℤ) - (1 : ℕ) * 2 ^ 1|) ∧
    (25 ≤ 25 ∧ 2 ^ 24 - 1 < 2 ^ 24) := by decide

theorem witness_EncCornerCases_classes :
    singleClass 0x80000000 = .zero ∧ singleClass 0x7F800001 = .nan ∧ singleClass 0xFF800000 = .infinity ∧
    singleClass 0x807FFFFF = .subnormal ∧ (singleClass 0x477FF000).finite = true := by decide
theorem witness_EncCornerCases_overflow : (65520 : ℚ) ≤ singleMag 0x477FF000 := by
  rw [singleMag_normal _ 142 0x7FF000 (by decide) (by decide) (by decide)]; norm_num
theorem witness_EncCornerCases_largest : (65488 : ℚ) < singleMag 0x477FEFFF ∧ singleMag 0x477FEFFF < 65520 := by
  rw [singleMag_normal _ 142 0x7FEFFF (by decide) (by decide) (by decide)]; norm_num
theorem witness_EncCornerCases_lowest : (65488 : ℚ) < singleMag 0x477FD001 := by
  rw [singleMag_normal _ 142 0x7FD001 (by decide) (by decide) (by decide)]; norm_num
theorem witness_EncCornerCases_underflow : singleMag 0x33000000 ≤ 1 / 2 ^ 25 := by
  rw [singleMag_normal _ 102 0 (by decide) (by decide) (by decide)]; norm_num
theorem witness_EncCornerCases_smallest : 1 / 2 ^ 25 < singleMag 0x33000001 ∧ singleMag 0x33000001 < 3 / 2 ^ 25 := by
  rw [singleMag_normal _ 102 1 (by decide) (by decide) (by decide)]; norm_num
theorem witness_EncCornerCases_carry :
    1 / 2 ^ 14 - 1 / 2 ^ 25 ≤ singleMag 0x387FE000 ∧ singleMag 0x387FE000 ≤ 1 / 2 ^ 14 := by
  rw [singleMag_normal _ 112 0x7FE000 (by decide) (by decide) (by decide)]; norm_num

theorem witness_EncRoundsToNearestHalf :
    singleClass 0xFF800000 ≠ .nan ∧ singleClass 0xFF800000 = .infinity ∧ singleClass 0x477FEFFF ≠ .nan ∧
    (singleClass 0x477FEFFF).finite = true ∧ (halfClass 0x7BFF).finite = true := by decide
/-- `1 + 2^-11` is a tie between `0x3C00`, the result, and `0x3C01`. -/
theorem witness_EncRoundsToNearestHalf_tie :
    (encodeCore 0x3F801000).1 = 0x3C00 ∧ |halfMag 0x3C00 - singleMag 0x3F801000| = |halfMag 0x3C01 - singleMag 0x3F801000| ∧
    halfMag 0x3C01 ≠ halfMag 0x3C00 := by
  have h0 := halfMag_normal 0x3C00 15 0 (by decide) (by decide) (by decide)
  have h1 := halfMag_normal 0x3C01 15 1 (by decide) (by decide) (by decide)
  refine ⟨by decide, ?_, ?_⟩
  · rw [h0, h1, singleMag_normal _ 127 0x1000 (by decide) (by decide) (by decide)]; norm_num
  · rw [h0, h1]; norm_num

theorem witness_LossKindIsExact :
    (encodeCore 0x477FF000).2 = .overflow ∧ (encodeCore 0x47800000).2 = .overflow ∧ (encodeCore 0xB3000000).2 = .underflow ∧
    (encodeCore 0x33000001).2 = .none := by decide
theorem witness_EncsRaisesPrecisionLossExactly :
    lostInHalf 0x477FF000 (encodeCore 0x477FF000).1 = true ∧ lostInHalf 0x33000000 (encodeCore 0x33000000).1 = true ∧
    lostInHalf 0x477FEFFF (encodeCore 0x477FEFFF).1 = false ∧ lostInHalf 0x7F800000 (encodeCore 0x7F800000).1 = false := by
  decide
theorem witness_DecIsExact :
    halfClass 0x8000 = .zero ∧ halfClass 0x03FF = .subnormal ∧ halfClass 0x0400 = .normal ∧ halfClass 0x7C00 = .infinity ∧
    halfClass 0x7C01 = .nan := by decide
theorem witness_HalfSurvivesDecodeEncode : halfClass 0xFC01 = .nan ∧ halfClass 0x0001 ≠ .nan := by decide
theorem witness_ExactSingleSurvivesEncodeDecode :
    (singleClass 0x3F800000).finite = true ∧ val16 0x3C00 = val32 0x3F800000 := by
  refine ⟨by decide, ?_⟩
  have c : halfClass 0x3C00 = .normal := by decide
  have d : singleClass 0x3F800000 = .normal := by decide
  have g : (halfSign 0x3C00 == 1) = (singleSign 0x3F800000 == 1) := by decide
  rw [val16, val32, c, d, g, singleMag_normal _ 127 0 (by decide) (by decide) (by decide),
    halfMag_normal _ 15 0 (by decide) (by decide) (by decide)]
  norm_num

/-- A buffer of the largest length there is, and buffers of 2, 1 and 0 bytes. -/
def buffers : State :=
  small stays [(1, ⟨0xFFFFFFFF, [(0xFFFFFFFD, 1), (0xFFFFFFFE, 2)]⟩), (2, Buffer.ofBytes [0x00, 0x3C]), (3, Buffer.ofBytes [0x3C])] []

theorem witness_TobSplitsLittleEndian : (⟨0b011, 1, 0x3C00, 3, 4, 5⟩ : Request).op = 0b011#3 ∧ (0x3C00 : Half) = 0x3C00 := by decide
theorem witness_FrombReadsTwoBytesOrRangeError :
    buffers.wf = true ∧
    (0xFFFFFFFD : Index).toNat + 2 ≤ (buffers.buffer 1).len.toNat ∧ (buffers.buffer 1).len.toNat < (0xFFFFFFFE : Index).toNat + 2 ∧
    (0 : Index).toNat + 2 ≤ (buffers.buffer 2).len.toNat ∧ (buffers.buffer 3).len.toNat < 2 ∧
    (buffers.buffer 4).len.toNat < 2 ∧ (0xFFFFFFFF : Index).toNat = 2 ^ 32 - 1 := by decide
theorem witness_FrombHasNoSideEffect :
    buffers ≠ small moves buffers.buffers [] ∧
    (buffers.buffer 2).len = ((small moves buffers.buffers []).buffer 2).len ∧
    ∀ a, a < (buffers.buffer 2).len.toNat →
      (buffers.buffer 2).data.read a = ((small moves buffers.buffers []).buffer 2).data.read a :=
  ⟨by decide, rfl, fun _ _ => rfl⟩

/-- Streams with room for none, one and two bytes and with unbounded room; streams with none, one and two bytes left. -/
def streams (p : Params) : State :=
  small p []
    [(0, ⟨[], 5, 0, .bounded 0⟩), (1, ⟨[], 5, 0, .bounded 1⟩), (2, ⟨[], 5, 0, .bounded 2⟩), (3, ⟨[(9, 1)], 5, 0, .unbounded⟩),
      (4, ⟨[(2, 0x7E)], 3, 3, .bounded 0⟩), (5, ⟨[(2, 0x7E)], 2, 3, .bounded 0⟩), (6, ⟨[(2, 0x7E)], 1, 3, .bounded 0⟩),
      (7, ⟨[], 9, 3, .bounded 4⟩)]

theorem witness_streams_wf : (streams stays).wf = true ∧ (streams moves).wf = true := by decide
theorem witness_WrsWritesTwoBytes :
    ((streams stays).stream 2).cap = .bounded 2 ∧ 2 ≤ 2 ∧ ((streams stays).stream 3).cap = .unbounded ∧
    ((streams stays).stream 8).cap = .unbounded := by decide
theorem witness_WrsWithoutRoomIsRangeError :
    ((streams stays).stream 0).cap = .bounded 0 ∧ ((streams stays).stream 1).cap = .bounded 1 ∧
    ¬((streams stays).params.wrsFailWritten = .one ∧ 1 = 1) ∧ (streams moves).params.wrsFailWritten = .one ∧
    ((streams moves).stream 1).cap = .bounded 1 := by decide
theorem witness_RdsReadsTwoBytes : ((streams stays).stream 6).pos + 2 ≤ ((streams stays).stream 6).rlen := by decide
theorem witness_RdsAtTheEndIsRangeError :
    ((streams stays).stream 4).rlen < ((streams stays).stream 4).pos + 2 ∧
    ((streams stays).stream 4).rlen ≤ ((streams stays).stream 4).pos ∧
    ((streams stays).stream 7).rlen ≤ ((streams stays).stream 7).pos ∧
    (streams stays).params.rdsFailAdvance = .zero ∧ ((streams stays).stream 5).rlen < ((streams stays).stream 5).pos + 2 ∧
    (streams moves).params.rdsFailAdvance = .avail ∧ ((streams moves).stream 5).rlen = ((streams moves).stream 5).pos + 1 := by
  decide
theorem witness_StreamAccessAdvancesByTwo :
    streamOf (.wrs 0xABCD 2) = some 2 ∧ responseOf (exec (.wrs 0xABCD 2) (streams stays)) = some { err := 0 } ∧
    streamOf (.rds 6) = some 6 ∧ responseOf (exec (.rds 6) (streams stays)) = some { err := 0, hOut := 0x7E00 } := by decide
theorem witness_UnboundedStreamNeverFails : ((streams moves).stream 3).cap = .unbounded := by decide
theorem witness_HalfSurvivesBufferRoundTrip :
    ∃ t ρ, exec (.tob 0x3C00) bare = .next t ∧ t.resp = some ρ ∧ (0 : Index).toNat + 2 ≤ (buffers.buffer 2).len.toNat ∧
      (buffers.buffer 2).data.read (0 : Index).toNat = ρ.bOut0 ∧
      (buffers.buffer 2).data.read ((0 : Index).toNat + 1) = ρ.bOut1 :=
  ⟨_, _, rfl, rfl, by decide, by decide, by decide⟩
theorem witness_HalfSurvivesStreamRoundTrip :
    ∃ t, exec (.wrs 0xABCD 2) (streams stays) = .next t ∧ t.resp = some { err := 0 } ∧
      (small stays [] [(0, (t.stream 2).readView 5 7 (.bounded 0))]).wf = true ∧
      ((small stays [] [(0, (t.stream 2).readView 5 7 (.bounded 0))]).stream 0).data = (t.stream 2).data ∧
      ((small stays [] [(0, (t.stream 2).readView 5 7 (.bounded 0))]).stream 0).pos = ((streams stays).stream 2).pos ∧
      ((streams stays).stream 2).pos + 2 ≤ ((small stays [] [(0, (t.stream 2).readView 5 7 (.bounded 0))]).stream 0).rlen :=
  ⟨_, rfl, by decide, by decide, by decide, by decide, by decide⟩
theorem witness_WrittenHalvesArePacked :
    2 * ([0xABCD] : List Half).length ≤ 2 ∧ ((streams stays).stream 2).cap = .bounded 2 ∧
    ((streams stays).stream 3).cap = .unbounded := by decide

theorem witness_EncDecTobNeverRaise : ∃ i : Instr, (∃ x, i = .enc x) ∨ (∃ h, i = .dec h) ∨ (∃ h, i = .tob h) :=
  ⟨.tob 0x7C01, .inr (.inr ⟨_, rfl⟩)⟩
theorem witness_RangeErrorExactly :
    responseOf (exec (.fromb 2 1) buffers) = some { err := 2 } ∧ responseOf (exec (.fromb 2 0) buffers) = some { hOut := 0x3C00 } ∧
    responseOf (exec (.rds 5) (streams stays)) = some { err := 2 } ∧
    responseOf (exec (.wrs 0xABCD 1) (streams stays)) = some { err := 2 } := by decide
theorem witness_FailedOperationsArePrecise :
    responseOf (exec (.rds 5) (streams moves)) = some { err := 2 } ∧
    responseOf (exec (.wrs 0xABCD 1) (streams moves)) = some { err := 2 } ∧
    responseOf (exec .reserved (streams moves)) = some { err := 3 } ∧
    (responseOf (exec (.encs 0x477FF000) (streams moves))).map (·.err) = some 1 := by decide
theorem witness_ReservedSelectAnswersIllegalOp : (⟨0b111, 1, 2, 3, 4, 5⟩ : Request).op = 0b111#3 := by decide
theorem witness_UnwrittenFieldsAreZero :
    (∀ h, Instr.tob 0x7C01 ≠ .dec h) ∧ (∀ h, Instr.dec 0x7C01 ≠ .tob h) ∧ (∀ x, Instr.tob 0x7C01 ≠ .enc x) ∧
    (∀ x, Instr.tob 0x7C01 ≠ .encs x) ∧ (∀ b o, Instr.tob 0x7C01 ≠ .fromb b o) ∧ (∀ k, Instr.tob 0x7C01 ≠ .rds k) := by
  simp
theorem witness_OnlyStreamOperationsChangeStorage :
    streamOf (.fromb 2 0) = none ∧ streamOf (.wrs 0xABCD 2) ≠ some 3 ∧
    responseOf (exec (.wrs 0xABCD 2) (streams stays)) = some { err := 0 } := by decide
theorem witness_ResponseIsFunctionOfRequestAndStorage :
    streams stays ≠ small stays [] [(2, (streams stays).stream 2)] ∧
    (small stays [] [(2, (streams stays).stream 2)]).wf = true ∧
    (streams stays).stream 2 = (small stays [] [(2, (streams stays).stream 2)]).stream 2 ∧
    bufferOf (.wrs 0xABCD 2) = none ∧ streamOf (.wrs 0xABCD 2) = some 2 := by decide
theorem witness_OperationsOnNoCommonStreamCommute :
    ∀ k, streamOf (.wrs 0xABCD 2) = some k → streamOf (.rds 6) ≠ some k := by
  intro k hk
  cases hk
  decide

/-- Two requesters, each with a request pending. -/
def two : State :=
  { bare with requesters := [⟨[encode (.tob 0x3C00)], []⟩, ⟨[encode (.dec 0x3C00), encode .reserved], []⟩], schedule := [1] }

theorem witness_StepRunsDecodedRequest :
    two.nextRequester = some 1 ∧ two.requesters[1]? = some ⟨[encode (.dec 0x3C00), encode .reserved], []⟩ ∧
    ∃ u, exec (decode (encode (.dec 0x3C00)))
      { two with requesters := two.requesters.set 1 ⟨[encode .reserved], []⟩, schedule := two.schedule.tail } = .next u :=
  ⟨by decide, by decide, _, rfl⟩
theorem witness_StepAnswersOneRequestInIssueOrder : two.hasPending 0 = true := by decide
theorem witness_EveryStepCompletes : ∀ r, bare.hasPending r = false := by
  intro r
  cases r with
  | zero => rfl
  | succ r => simp [State.hasPending, bare, small]
theorem witness_AnyPendingRequesterMayBeNext : two.requesters[0]? = some ⟨[encode (.tob 0x3C00)], []⟩ := by decide
theorem witness_EveryPendingRequestIsAnswered : two.pendingCount = 3 := by decide
theorem witness_StepKeepsStorageCanonical : two.wf = true ∧ ∃ t, step two = .next t := ⟨by decide, _, rfl⟩
theorem witness_StepKeepsResponsesLegal : two.responsesLegal = true ∧ ∃ t, step two = .next t := ⟨by decide, _, rfl⟩
theorem witness_SpellingsStandForTheirOperations : (Literal.decimal true 25 1).bits = some 0xC0200000 := by decide

end Sys2Proof.Tests
end

section
/-! SUPPORT. The statements about the state (10_state.md): what an operation and a step leave, and the invariant. -/

namespace Sys2Proof.Machine

/-! ## Canonical storage -/

/-- An operation keeps the caller's storage canonical: it writes at most the stream it names, and writes a canonical one. -/
theorem exec_wf {i : Instr} {s t : State} (hs : s.wf = true) (h : exec i s = .next t) : t.wf = true := by
  rcases exec_cases i s with ⟨ρ, e⟩ | ⟨x, k, -, e⟩ | ⟨k, -, e⟩ <;> rw [e] at h <;> cases h <;> rw [State.wf_respond]
  · exact hs
  · exact State.wf_setStream s k _ hs (wrsStream_wf _ _ _ (s.wf_stream k hs))
  · exact State.wf_setStream s k _ hs (rdsStream_wf _ _ (s.wf_stream k hs))

/-- Settles O42: taking a request, answering it and delivering the response each keep the canonical form. -/
theorem stepKeepsStorageCanonical : Obligations.StepKeepsStorageCanonical := by
  intro s t hs h
  rcases step_cases h with ⟨-, rfl⟩ | ⟨r, q, u, -, he, rfl⟩
  · rwa [State.wf_idle]
  · rw [State.wf_deliver]
    exact exec_wf (by rwa [State.wf_accept]) he

/-! ## Responses -/

/-- Every operation completes, with a response (10_state.md R26). -/
theorem exec_completes (i : Instr) (s : State) : ∃ t ρ, exec i s = .next t ∧ t.resp = some ρ := by
  rcases exec_cases i s with ⟨ρ, e⟩ | ⟨x, k, -, e⟩ | ⟨k, -, e⟩ <;> exact ⟨_, _, e, rfl⟩

/-- All `FROMB` answers: two bytes of the buffer, or RangeError (41_serialize.md R78). -/
theorem frombResponse_cases (b : Buffer) (offset : Index) :
    frombResponse b offset =
        { err := 0, hOut := halfOfBytes (bufRead b offset.toNat) (bufRead b (offset.toNat + 1)) } ∨
      frombResponse b offset = Response.error .rangeError := by
  unfold frombResponse
  split
  · exact .inl rfl
  · exact .inr rfl

/-- `FROMB` writes no data field but `h_out`. -/
theorem frombResponse_half_only (b : Buffer) (offset : Index) :
    (frombResponse b offset).fOut = 0 ∧ (frombResponse b offset).bOut0 = 0 ∧ (frombResponse b offset).bOut1 = 0 := by
  rcases frombResponse_cases b offset with e | e <;> rw [e] <;> exact ⟨rfl, rfl, rfl⟩

/-- `RDS` writes no data field but `h_out`. -/
theorem rdsStream_half_only (p : RdsFailAdvance) (st : Stream) :
    (rdsStream p st).2.fOut = 0 ∧ (rdsStream p st).2.bOut0 = 0 ∧ (rdsStream p st).2.bOut1 = 0 := by
  rcases rdsStream_cases p st with ⟨-, e⟩ | ⟨-, e⟩ <;> rw [e] <;> exact ⟨rfl, rfl, rfl⟩

/-- Settles O33, by the operations: the responses of `FROMB` and `RDS` are the only ones not written out in their meaning. -/
theorem unwrittenFieldsAreZero : Obligations.UnwrittenFieldsAreZero := by
  intro i s
  cases i with
  | enc x => exact ⟨_, _, rfl, rfl, fun _ => rfl, fun _ => ⟨rfl, rfl⟩, fun h => absurd rfl (h x)⟩
  | encs x => exact ⟨_, _, rfl, rfl, fun _ => rfl, fun _ => ⟨rfl, rfl⟩, fun _ h => absurd rfl (h x)⟩
  | dec x => exact ⟨_, _, rfl, rfl, fun h => absurd rfl (h x), fun _ => ⟨rfl, rfl⟩, fun _ _ _ _ => rfl⟩
  | tob x => exact ⟨_, _, rfl, rfl, fun _ => rfl, fun h => absurd rfl (h x), fun _ _ _ _ => rfl⟩
  | fromb buf offset =>
    obtain ⟨hf, hb⟩ := frombResponse_half_only (s.buffer buf) offset
    exact ⟨_, _, rfl, rfl, fun _ => hf, fun _ => hb, fun _ _ h => absurd rfl (h buf offset)⟩
  | wrs x k => exact ⟨_, _, rfl, rfl, fun _ => rfl, fun _ => ⟨rfl, rfl⟩, fun _ _ _ _ => rfl⟩
  | rds k =>
    obtain ⟨hf, hb⟩ := rdsStream_half_only s.params.rdsFailAdvance (s.stream k)
    exact ⟨_, _, rfl, rfl, fun _ => hf, fun _ => hb, fun _ _ _ h => absurd rfl (h k)⟩
  | reserved => exact ⟨_, _, rfl, rfl, fun _ => rfl, fun _ => ⟨rfl, rfl⟩, fun _ _ _ _ => rfl⟩

/-! ## What an operation leaves and what it depends on -/

/-- Settles O34: the frame of an operation, and read after write on the stream it names. -/
theorem onlyStreamOperationsChangeStorage : Obligations.OnlyStreamOperationsChangeStorage := by
  intro i s t h
  obtain ⟨hp, hq, hsch, hb⟩ := exec_frame h
  refine ⟨hb, hp, hq, hsch, fun hi => ?_, fun hs k hk => ?_⟩
  · obtain ⟨f, e⟩ := exec_off_streams i hi
    rw [e s] at h
    cases h
    rfl
  · cases hi : streamOf i with
    | none =>
      obtain ⟨f, e⟩ := exec_off_streams i hi
      rw [e s] at h
      cases h
      rfl
    | some j =>
      obtain ⟨f, e⟩ := exec_on_stream i j s.params hi
      rw [e s rfl] at h
      cases h
      have hkj : k ≠ j := fun hkj => hk (hkj ▸ hi)
      rw [State.respond_stream, State.stream_setStream s j k _ hs, if_neg hkj]

/-- An operation that names no stream gives the same response over any two states that agree on the buffer it names. -/
theorem exec_off_streams_congr {i : Instr} {s s' : State} (hi : streamOf i = none)
    (hb : ∀ k, bufferOf i = some k → s.buffer k = s'.buffer k) :
    ∃ ρ, exec i s = .next (s.respond ρ) ∧ exec i s' = .next (s'.respond ρ) := by
  cases i with
  | enc x => exact ⟨_, rfl, rfl⟩
  | encs x => exact ⟨_, rfl, rfl⟩
  | dec x => exact ⟨_, rfl, rfl⟩
  | tob x => exact ⟨_, rfl, rfl⟩
  | fromb buf offset => exact ⟨frombResponse (s.buffer buf) offset, rfl, by rw [hb buf rfl]; rfl⟩
  | wrs x k => cases hi
  | rds k => cases hi
  | reserved => exact ⟨_, rfl, rfl⟩

/-- Settles O35, by whether the operation names a stream. -/
theorem responseIsFunctionOfRequestAndStorage : Obligations.ResponseIsFunctionOfRequestAndStorage := by
  intro i s s' hs hs' hp hb hst
  cases hi : streamOf i with
  | none =>
    obtain ⟨ρ, e, e'⟩ := exec_off_streams_congr hi hb
    exact ⟨_, _, e, e', rfl, fun k hk => by cases hk⟩
  | some j =>
    obtain ⟨f, e⟩ := exec_on_stream i j s.params hi
    have hj : s.stream j = s'.stream j := hst j hi
    refine ⟨_, _, e s rfl, e s' hp.symm, by simp [hj], fun k hk => ?_⟩
    cases hk
    simp [State.stream_setStream, hs, hs', hj]

/-! ## Steps -/

/-- A step is the meaning of the request it takes, with the response delivered to its requester. -/
theorem step_of_fetch {s u : State} {r : Nat} {q : Request} (hf : s.fetch = some (r, q))
    (he : exec (decode q) (s.accept r) = .next u) : step s = .next (u.deliver r) := by
  simp only [step, hf, he, onNext_next]

/-- Where a request is pending, a step takes one. -/
theorem State.fetch_of_hasPending {s : State} {r : Nat} (h : s.hasPending r = true) : ∃ r' q, s.fetch = some (r', q) := by
  cases hf : s.fetch with
  | none => rw [s.fetch_none.1 hf r] at h; cases h
  | some rq => exact ⟨rq.1, rq.2, rfl⟩

/-- No operation reads or writes the queues or the schedule, so taking a request before or after it makes no difference. -/
theorem exec_accept {i : Instr} {s u : State} (h : exec i s = .next u) (r : Nat) :
    exec i (s.accept r) = .next (u.accept r) := by
  cases i <;> cases h <;> rfl

/-- Settles O38: `step` is `exec` of the decoded request in the state before, with the request taken and the response
delivered, and both change the requester whose turn it is alone. -/
theorem stepAnswersOneRequestInIssueOrder : Obligations.StepAnswersOneRequestInIssueOrder := by
  rintro s ⟨r₀, h₀⟩
  obtain ⟨r, q, hf⟩ := State.fetch_of_hasPending h₀
  obtain ⟨-, p, rest, hp, hq⟩ := (s.fetch_some r q).1 hf
  obtain ⟨u, ρ, he, hρ⟩ := exec_completes (decode q) s
  obtain ⟨hpar, hreq, -, -⟩ := exec_frame he
  refine ⟨(u.accept r).deliver r, u, r, p, q, rest, ρ, step_of_fetch hf (exec_accept he r), hp, hq, he, hρ, hρ, rfl, rfl,
    hpar, ?_, fun j hj => ?_⟩
  · simp [Requester.advance, Requester.receive, hreq, hp, hq, hρ]
  · simp [hreq, hj.symm]

/-- Settles O37: taking and delivering each set the requester's entry, and the operation leaves that entry. -/
theorem stepRunsDecodedRequest : Obligations.StepRunsDecodedRequest := by
  intro s u r p q rest hn hp hq he
  have hf : s.fetch = some (r, q) := (s.fetch_some r q).2 ⟨hn, p, rest, hp, hq⟩
  have hadv : p.advance = { p with pending := rest } := by rw [Requester.advance, hq, List.tail_cons]
  rw [← hadv, ← s.accept_eq r p hp] at he
  have hu : u.requesters[r]? = some p.advance := by
    obtain ⟨-, hreq, -, -⟩ := exec_frame he
    simp [hreq, hp]
  rw [step_of_fetch hf he, u.deliver_eq r _ hu, hadv]
  rfl

/-! ## Legal responses -/

/-- The responses of a state, as propositions. -/
theorem State.responsesLegal_iff (s : State) :
    s.responsesLegal = true ↔
      (∀ ρ, s.resp = some ρ → ρ.legal = true) ∧ ∀ p ∈ s.requesters, ∀ ρ ∈ p.responses, ρ.legal = true := by
  simp [State.responsesLegal]

/-- A response without an error whose only data is `h_out` is legal. -/
theorem Response.legal_half (h : Half) : ({ err := 0, hOut := h } : Response).legal = true := by
  simp [Response.legal, ErrorKind.code]

/-- A response that carries an error and no data is legal. -/
theorem Response.legal_error (e : ErrorKind) : (Response.error e).legal = true := by
  cases e <;> decide

/-- The response of `ENCS` is legal: with or without PrecisionLoss only `h_out` is written. -/
theorem Response.legal_strict (l : Loss) (h : Half) :
    ({ err := l.strictError.code, hOut := h } : Response).legal = true := by
  cases l <;> simp [Response.legal, ErrorKind.code, Loss.strictError]

/-- The response of `FROMB` is legal. -/
theorem frombResponse_legal (b : Buffer) (offset : Index) : (frombResponse b offset).legal = true := by
  rcases frombResponse_cases b offset with e | e <;> rw [e]
  · exact Response.legal_half _
  · exact Response.legal_error _

/-- The response of `RDS` is legal. -/
theorem rdsStream_legal (p : RdsFailAdvance) (st : Stream) : (rdsStream p st).2.legal = true := by
  rcases rdsStream_cases p st with ⟨-, e⟩ | ⟨-, e⟩ <;> rw [e]
  · exact Response.legal_error _
  · exact Response.legal_half _

/-- Every operation gives a legal response (10_state.md R27). -/
theorem exec_resp_legal {i : Instr} {s t : State} {ρ : Response} (h : exec i s = .next t) (hρ : t.resp = some ρ) :
    ρ.legal = true := by
  cases i <;> cases h <;> cases hρ
  case enc x => exact Response.legal_half _
  case encs x => exact Response.legal_strict _ _
  case dec x => simp [Response.legal, ErrorKind.code]
  case tob x => simp [Response.legal, ErrorKind.code]
  case fromb buf offset => exact frombResponse_legal _ _
  case wrs x k => exact Response.legal_error _
  case rds k => exact rdsStream_legal _ _
  case reserved => exact Response.legal_error _

/-- What holds of every entry, and is kept where one is changed, holds of every entry after the change. -/
theorem forall_mem_modify {α : Type} {P : α → Prop} {l : List α} {f : α → α} (r : Nat) (h : ∀ x ∈ l, P x)
    (hf : ∀ x, P x → P (f x)) : ∀ x ∈ l.modify r f, P x := by
  intro x hx
  obtain ⟨j, hj⟩ := List.mem_iff_getElem?.1 hx
  rw [List.getElem?_modify] at hj
  obtain ⟨y, hy, rfl⟩ := Option.map_eq_some_iff.1 hj
  have hP := h y (List.mem_of_getElem? hy)
  split
  · exact hf y hP
  · exact hP

/-- Settles O43: the step's response is one an operation gives, and it is all that is added to what is received. -/
theorem stepKeepsResponsesLegal : Obligations.StepKeepsResponsesLegal := by
  intro s t hs h
  obtain ⟨-, hreq⟩ := (State.responsesLegal_iff s).1 hs
  refine (State.responsesLegal_iff t).2 ?_
  rcases step_cases h with ⟨-, rfl⟩ | ⟨r, q, u, -, he, rfl⟩
  · exact ⟨fun ρ hρ => (by cases hρ), hreq⟩
  · have hresp : ∀ ρ, u.resp = some ρ → ρ.legal = true := fun ρ => exec_resp_legal he
    obtain ⟨-, hu, -, -⟩ := exec_frame he
    have hacc : ∀ p ∈ u.requesters, ∀ ρ ∈ p.responses, ρ.legal = true := by
      rw [hu, State.accept_requesters]
      exact forall_mem_modify r hreq fun p hp => hp
    refine ⟨hresp, forall_mem_modify r hacc fun p hp ρ hρ => ?_⟩
    rw [Requester.receive_responses, List.mem_append, Option.mem_toList] at hρ
    exact hρ.elim (hp ρ) (hresp ρ)

/-! ## Reset -/

/-- Settles O44: no storage is listed and there is no response. -/
theorem resetMeetsInvariant : Obligations.ResetMeetsInvariant := ⟨rfl, rfl⟩

/-- A request submitted after reset is the one the next step takes. -/
theorem fetch_reset_submit (q : Request) : (State.reset.submit 0 [q]).fetch = some (0, q) := rfl

/-- Taking the request submitted after reset gives the reset state again. -/
theorem accept_reset_submit (q : Request) : (State.reset.submit 0 [q]).accept 0 = State.reset := rfl

/-- Settles O45: the step is the operation in the reset state, its response delivered to requester 0. -/
theorem resetAcceptsARequestAtOnce : Obligations.ResetAcceptsARequestAtOnce := by
  refine ⟨rfl, rfl, by simp [State.reset], fun q => ?_⟩
  obtain ⟨u, ρ, he, hρ⟩ := exec_completes (decode q) State.reset
  obtain ⟨-, hreq, -, -⟩ := exec_frame he
  refine ⟨u.deliver 0, u, ρ, step_of_fetch (fetch_reset_submit q) (by rwa [accept_reset_submit]), he, hρ, ?_, rfl⟩
  simp [hreq, hρ, State.reset, Requester.receive]

end Sys2Proof.Machine
end

section
/-! SUPPORT. The statements about caller storage (20_memory.md): `FROMB` only reads its buffer, a stream access moves its
stream, and operations that name no common stream commute. -/

namespace Sys2Proof.Machine

/-! ## Buffers -/

/-- Two bytes remain from the offset (41_serialize.md R78). -/
theorem Buffer.inRange_iff (b : Buffer) (offset : Index) : b.inRange offset = true ↔ offset.toNat + 2 ≤ b.len.toNat := by
  simp [Buffer.inRange]

/-- The response of `FROMB` depends on the length of the buffer and the bytes inside it alone (20_memory.md R42). -/
theorem frombResponse_congr {b b' : Buffer} (hlen : b.len = b'.len)
    (hdata : ∀ a, a < b.len.toNat → b.data.read a = b'.data.read a) (offset : Index) :
    frombResponse b offset = frombResponse b' offset := by
  have hrange : b.inRange offset = b'.inRange offset := by rw [Buffer.inRange, Buffer.inRange, hlen]
  unfold frombResponse
  rw [← hrange]
  split
  · next hin =>
    have hle := (b.inRange_iff offset).1 hin
    simp only [bufRead, hdata offset.toNat (by omega), hdata (offset.toNat + 1) (by omega)]
  · rfl

/-- Settles O17: both states give the response over the first one's buffer. -/
theorem frombHasNoSideEffect : Obligations.FrombHasNoSideEffect := by
  intro buf offset s s' hlen hdata
  exact ⟨frombResponse (s.buffer buf) offset, rfl, by rw [frombResponse_congr hlen hdata]; rfl⟩

/-! ## Streams -/

/-- RangeError is an error (60_exceptions.md R83). -/
theorem ErrorKind.rangeError_code_ne_zero : ErrorKind.rangeError.code ≠ 0 := by decide

/-- A `WRS` without an error has written both bytes. -/
theorem wrsStream_of_no_error {p : WrsFailWritten} {h : Half} {st : Stream} (herr : (wrsStream p h st).2.code = 0) :
    (wrsStream p h st).1 = streamWrite (streamWrite st (lowByte h)) (highByte h) := by
  rcases wrsStream_cases p h st with ⟨-, -, e⟩ | ⟨-, -, e⟩ | ⟨-, e⟩ <;> rw [e] at herr ⊢
  · exact absurd herr ErrorKind.rangeError_code_ne_zero
  · exact absurd herr ErrorKind.rangeError_code_ne_zero

/-- An `RDS` without an error has moved the position past two bytes. -/
theorem rdsStream_of_no_error {p : RdsFailAdvance} {st : Stream} (herr : (rdsStream p st).2.err = 0) :
    (rdsStream p st).1 = { st with pos := st.pos + 2 } := by
  rcases rdsStream_cases p st with ⟨-, e⟩ | ⟨-, e⟩ <;> rw [e] at herr ⊢
  · exact absurd herr ErrorKind.rangeError_code_ne_zero

/-- Where two bytes were written one after the other, each is read back. -/
theorem streamWrite_streamWrite_read (st : Stream) (lo hi : Byte) (hst : st.wf = true) :
    (streamWrite (streamWrite st lo) hi).data.read st.pos = lo ∧
      (streamWrite (streamWrite st lo) hi).data.read (st.pos + 1) = hi := by
  constructor
  · rw [streamWrite_read _ _ _ (streamWrite_wf st lo hst), streamWrite_pos, if_neg (by omega),
      streamWrite_read _ _ _ hst, if_pos rfl]
  · rw [streamWrite_read _ _ _ (streamWrite_wf st lo hst), streamWrite_pos, if_pos rfl]

/-- Settles O22, by the two stream operations. -/
theorem streamAccessAdvancesByTwo : Obligations.StreamAccessAdvancesByTwo := by
  intro i k s t ρ hs hi h hρ herr
  suffices hmoved : (t.stream k).pos = (s.stream k).pos + 2 ∧
      ∀ x, i = .wrs x k → (t.stream k).data.read (s.stream k).pos = lowByte x ∧
        (t.stream k).data.read ((s.stream k).pos + 1) = highByte x by
    obtain ⟨hpos, hbytes⟩ := hmoved
    exact ⟨hpos, fun hsame => by rw [hsame] at hpos; omega, hbytes⟩
  cases i with
  | wrs x j =>
    cases hi
    cases h
    cases hρ
    rw [State.respond_stream, State.stream_setStream s k k _ hs, if_pos rfl, wrsStream_of_no_error herr]
    refine ⟨rfl, fun y hy => ?_⟩
    cases hy
    exact streamWrite_streamWrite_read _ _ _ (s.wf_stream k hs)
  | rds j =>
    cases hi
    cases h
    cases hρ
    rw [State.respond_stream, State.stream_setStream s k k _ hs, if_pos rfl, rdsStream_of_no_error herr]
    exact ⟨rfl, fun y hy => by cases hy⟩
  | enc x => cases hi
  | encs x => cases hi
  | dec x => cases hi
  | tob x => cases hi
  | fromb buf offset => cases hi
  | reserved => cases hi

/-! ## Operations in either order -/

/-- An operation leaves every stream it does not name. -/
theorem exec_other_stream {i : Instr} {s t : State} {k : Handle} (hs : s.wf = true) (h : exec i s = .next t)
    (hk : streamOf i ≠ some k) : t.stream k = s.stream k := by
  obtain ⟨-, -, -, -, -, hstream⟩ := onlyStreamOperationsChangeStorage i s t h
  exact hstream hs k hk

/-- Canonical storage in which every handle names the same stream is the same data. -/
theorem State.streams_ext {s t : State} (hs : s.wf = true) (ht : t.wf = true) (hp : s.params = t.params)
    (h : ∀ k, s.stream k = t.stream k) : s.streams = t.streams := by
  obtain ⟨-, -, hsw, -⟩ := (State.wf_iff s).1 hs
  obtain ⟨-, -, htw, -⟩ := (State.wf_iff t).1 ht
  rw [← hp] at htw
  refine Table.ext _ _ _ hsw htw fun k => ?_
  have hk := h k
  rwa [State.stream, State.stream, ← hp] at hk

/-- Where `j` does not name the stream `i` names, `i` gives the same response and makes the same of its stream before `j` and
after it. -/
theorem exec_after {i j : Instr} {s a b ba : State} (hs : s.wf = true)
    (hij : ∀ k, streamOf i = some k → streamOf j ≠ some k) (ha : exec i s = .next a) (hb : exec j s = .next b)
    (hba : exec i b = .next ba) :
    a.resp = ba.resp ∧ ∀ k, streamOf i = some k → a.stream k = ba.stream k := by
  obtain ⟨hp, -, -, hbuf⟩ := exec_frame hb
  obtain ⟨t, t', ht, ht', hsame⟩ := responseIsFunctionOfRequestAndStorage i s b hs (exec_wf hs hb) hp.symm
    (fun k _ => by rw [State.buffer, State.buffer, hbuf]) (fun k hk => (exec_other_stream hs hb (hij k hk)).symm)
  rw [ha] at ht
  rw [hba] at ht'
  cases ht
  cases ht'
  exact hsame

/-- Settles O36: each operation gives the same response, and makes the same of its own stream, before and after the other; the
streams are compared handle by handle, by which of the two names the handle. -/
theorem operationsOnNoCommonStreamCommute : Obligations.OperationsOnNoCommonStreamCommute := by
  intro i j s hs hij
  have hji : ∀ k, streamOf j = some k → streamOf i ≠ some k := fun k hj hi => hij k hi hj
  obtain ⟨a, -, ha, -⟩ := exec_completes i s
  obtain ⟨b, -, hb, -⟩ := exec_completes j s
  obtain ⟨ab, -, hab, -⟩ := exec_completes j a
  obtain ⟨ba, -, hba, -⟩ := exec_completes i b
  have ha_wf := exec_wf hs ha
  have hb_wf := exec_wf hs hb
  obtain ⟨hresp_i, hstream_i⟩ := exec_after hs hij ha hb hba
  obtain ⟨hresp_j, hstream_j⟩ := exec_after hs hji hb ha hab
  obtain ⟨hpa, -, -, hbufa⟩ := exec_frame ha
  obtain ⟨hpb, -, -, hbufb⟩ := exec_frame hb
  obtain ⟨hpab, -, -, hbufab⟩ := exec_frame hab
  obtain ⟨hpba, -, -, hbufba⟩ := exec_frame hba
  refine ⟨a, b, ab, ba, ha, hab, hb, hba, hresp_i, hresp_j, ?_, by rw [hbufab, hbufa, hbufba, hbufb]⟩
  refine State.streams_ext (exec_wf ha_wf hab) (exec_wf hb_wf hba) (by rw [hpab, hpa, hpba, hpb]) fun k => ?_
  by_cases hi : streamOf i = some k
  · calc ab.stream k = a.stream k := exec_other_stream ha_wf hab (hij k hi)
      _ = ba.stream k := hstream_i k hi
  by_cases hj : streamOf j = some k
  · calc ab.stream k = b.stream k := (hstream_j k hj).symm
      _ = ba.stream k := (exec_other_stream hb_wf hba hi).symm
  · calc ab.stream k = a.stream k := exec_other_stream ha_wf hab hj
      _ = s.stream k := exec_other_stream hs ha hi
      _ = b.stream k := (exec_other_stream hs hb hj).symm
      _ = ba.stream k := (exec_other_stream hb_wf hba hi).symm

/-! ## Whose turn it is -/

/-- The requester the schedule says is taken next, where it has a request pending. -/
theorem State.nextRequester_of_schedule {s : State} {r : Nat} {w : List Nat} (hw : s.schedule = r :: w)
    (hr : s.hasPending r = true) : s.nextRequester = some r := by
  simp only [State.nextRequester, hw, hr, if_true]

/-- Settles O40: the schedule that names the requester. -/
theorem anyPendingRequesterMayBeNext : Obligations.AnyPendingRequesterMayBeNext := by
  intro s r p q rest hp hq
  have hpending : ({ s with schedule := [r] } : State).hasPending r = true :=
    (State.hasPending_iff _ r).2 ⟨p, q, rest, hp, hq⟩
  have hnext := State.nextRequester_of_schedule (w := []) rfl hpending
  obtain ⟨u, ρ, he, hρ⟩ := exec_completes (decode q)
    { s with requesters := s.requesters.set r { p with pending := rest }, schedule := [] }
  obtain ⟨-, hreq, -, -⟩ := exec_frame he
  refine ⟨[r], _, { pending := rest, responses := p.responses ++ [ρ] },
    stepRunsDecodedRequest _ u r p q rest hnext hp hq he, ?_, rfl, by simp⟩
  have hr : r < s.requesters.length := (List.getElem?_eq_some_iff.1 hp).1
  simp [hreq, hρ, hr]

end Sys2Proof.Machine
end

section
/-! SUPPORT. The statements about encodings (30_encoding.md): which requests are one operation, which request is answered with
IllegalOp, the classes of halves as ranges of patterns, program lines, and the patterns of decimal literals. -/

namespace Sys2Proof

/-! ## Requests (30_encoding.md R48, R50, R51) -/

/-- Two requests agree on `op` and on the fields that operation reads. -/
def Request.SpellSame (r r' : Request) : Prop :=
  r.op = r'.op ∧ (readsX r.op = true → r.x = r'.x) ∧ (readsH r.op = true → r.h = r'.h) ∧
    (readsBuf r.op = true → r.buf = r'.buf ∧ r.offset = r'.offset) ∧ (readsSt r.op = true → r.st = r'.st)

theorem Request.SpellSame.refl (r : Request) : r.SpellSame r :=
  ⟨rfl, fun _ => rfl, fun _ => rfl, fun _ => ⟨rfl, rfl⟩, fun _ => rfl⟩

theorem Request.SpellSame.symm {r r' : Request} (h : r.SpellSame r') : r'.SpellSame r := by
  obtain ⟨hop, hx, hh, hbuf, hst⟩ := h
  rw [hop] at hx hh hbuf hst
  exact ⟨hop.symm, fun k => (hx k).symm, fun k => (hh k).symm, fun k => ⟨(hbuf k).1.symm, (hbuf k).2.symm⟩,
    fun k => (hst k).symm⟩

theorem Request.SpellSame.trans {a b c : Request} (hab : a.SpellSame b) (hbc : b.SpellSame c) : a.SpellSame c := by
  obtain ⟨hop, hx, hh, hbuf, hst⟩ := hab
  obtain ⟨hop', hx', hh', hbuf', hst'⟩ := hbc
  rw [← hop] at hop' hx' hh' hbuf' hst'
  exact ⟨hop', fun k => (hx k).trans (hx' k), fun k => (hh k).trans (hh' k),
    fun k => ⟨(hbuf k).1.trans (hbuf' k).1, (hbuf k).2.trans (hbuf' k).2⟩, fun k => (hst k).trans (hst' k)⟩

/-- The requests that decode to an operation are those that agree with its encoding on `op` and the fields it reads. -/
theorem decode_eq_iff_spellSame_encode (i : Instr) (r : Request) : decode r = i ↔ r.SpellSame (encode i) := by
  cases i with
  | enc x => exact Laws.Spelling.enc x r
  | encs x => exact Laws.Spelling.encs x r
  | dec h => exact Laws.Spelling.dec h r
  | tob h => exact Laws.Spelling.tob h r
  | fromb buf offset => exact Laws.Spelling.fromb buf offset r
  | wrs h st => exact Laws.Spelling.wrs h st r
  | rds st => exact Laws.Spelling.rds st r
  | reserved => exact Laws.Spelling.reserved r

theorem decode_encode (i : Instr) : decode (encode i) = i :=
  (decode_eq_iff_spellSame_encode i _).2 (Request.SpellSame.refl _)

/-- A request agrees with the encoding of the operation it decodes to. -/
theorem spellSame_encode_decode (r : Request) : r.SpellSame (encode (decode r)) :=
  (decode_eq_iff_spellSame_encode _ r).1 rfl

theorem decode_eq_decode_iff (r r' : Request) : decode r = decode r' ↔ r.SpellSame r' :=
  calc decode r = decode r' ↔ r.SpellSame (encode (decode r')) := decode_eq_iff_spellSame_encode _ r
    _ ↔ r.SpellSame r' :=
      ⟨fun h => h.trans (spellSame_encode_decode r').symm, fun h => h.trans (spellSame_encode_decode r')⟩

/-- Settles O2: both requests are compared with the encoding of the operation, with which each that decodes to it agrees. -/
theorem decodeAndEncodeAgree : Obligations.DecodeAndEncodeAgree :=
  ⟨decode_encode, decode_eq_decode_iff⟩

/-- Settles O1: each row of the table of 30_encoding.md R50 is an arm of `decode`. -/
theorem decodeFollowsSelectTable : Obligations.DecodeFollowsSelectTable :=
  fun _ _ _ _ _ => ⟨rfl, rfl, rfl, rfl, rfl, rfl, rfl, rfl⟩

end Sys2Proof

namespace Sys2Proof.Machine

/-! ## The reserved select (30_encoding.md R56, 70_reset_and_hazards.md R98) -/

/-- A request is ill-formed exactly where it decodes to the reserved operation. -/
theorem wf_eq_false_iff_decode_reserved (r : Request) : r.wf = false ↔ decode r = .reserved := by
  rcases Laws.Spelling.decode_eq r with
    ⟨e, d⟩ | ⟨e, d⟩ | ⟨e, d⟩ | ⟨e, d⟩ | ⟨e, d⟩ | ⟨e, d⟩ | ⟨e, d⟩ | ⟨e, d⟩ <;> simp [Request.wf, e, d]

/-- The code 3 is IllegalOp's alone (60_exceptions.md R83). -/
theorem ErrorKind.code_ne_three {e : ErrorKind} (h : e ≠ .illegalOp) : e.code ≠ 3 := by
  cases e with
  | illegalOp => exact absurd rfl h
  | none => decide
  | precisionLoss => decide
  | rangeError => decide

/-- `ENCS` raises PrecisionLoss or nothing. -/
theorem Loss.strictError_ne_illegalOp (l : Loss) : l.strictError ≠ .illegalOp := by
  cases l <;> decide

/-- `FROMB` answers RangeError or no error. -/
theorem frombResponse_err_ne_three (b : Buffer) (offset : Index) : (frombResponse b offset).err ≠ 3 := by
  rcases frombResponse_cases b offset with e | e <;> rw [e]
  · exact ErrorKind.code_ne_three (e := .none) nofun
  · exact ErrorKind.code_ne_three (e := .rangeError) nofun

/-- `WRS` raises RangeError or nothing. -/
theorem wrsStream_ne_illegalOp (p : WrsFailWritten) (h : Half) (st : Stream) : (wrsStream p h st).2 ≠ .illegalOp := by
  rcases wrsStream_cases p h st with ⟨-, -, e⟩ | ⟨-, -, e⟩ | ⟨-, e⟩ <;> rw [e] <;> exact nofun

/-- `RDS` answers RangeError or no error. -/
theorem rdsStream_err_ne_three (p : RdsFailAdvance) (st : Stream) : (rdsStream p st).2.err ≠ 3 := by
  rcases rdsStream_cases p st with ⟨-, e⟩ | ⟨-, e⟩ <;> rw [e]
  · exact ErrorKind.code_ne_three (e := .rangeError) nofun
  · exact ErrorKind.code_ne_three (e := .none) nofun

/-- Of the operations only the reserved one answers IllegalOp. -/
theorem exec_err_eq_three_iff {i : Instr} {s t : State} {ρ : Response} (h : exec i s = .next t) (hρ : t.resp = some ρ) :
    ρ.err = 3 ↔ i = .reserved := by
  cases i <;> cases h <;> cases hρ
  case enc x => exact iff_of_false (ErrorKind.code_ne_three (e := .none) nofun) nofun
  case encs x => exact iff_of_false (ErrorKind.code_ne_three (Loss.strictError_ne_illegalOp _)) nofun
  case dec x => exact iff_of_false (ErrorKind.code_ne_three (e := .none) nofun) nofun
  case tob x => exact iff_of_false (ErrorKind.code_ne_three (e := .none) nofun) nofun
  case fromb buf offset => exact iff_of_false (frombResponse_err_ne_three _ _) nofun
  case wrs x k => exact iff_of_false (ErrorKind.code_ne_three (wrsStream_ne_illegalOp _ _ _)) nofun
  case rds k => exact iff_of_false (rdsStream_err_ne_three _ _) nofun
  case reserved => exact iff_of_true rfl rfl

/-- Settles O32: every operation completes, and its error code and the well-formedness test both single out the reserved
operation. -/
theorem illegalOpOnlyForReservedSelect : Obligations.IllegalOpOnlyForReservedSelect := by
  intro r s
  obtain ⟨t, ρ, he, hρ⟩ := exec_completes (decode r) s
  exact ⟨t, ρ, he, hρ, (exec_err_eq_three_iff he hρ).trans (wf_eq_false_iff_decode_reserved r).symm⟩

/-! ## Classes of halves (30_encoding.md R54) -/

/-- The exponent field and the mantissa field as parts of the low 15 bits. -/
theorem half_low_bits_eq (h : Half) : h.toNat % 2 ^ 15 = (halfExp h).toNat * 2 ^ 10 + (halfMant h).toNat := by
  rw [toNat_halfExp, toNat_halfMant]
  omega

/-- The class of a half, by the range its low 15 bits lie in. -/
theorem halfClass_cases (h : Half) :
    (halfClass h = .zero ∧ h.toNat % 2 ^ 15 = 0) ∨
      (halfClass h = .subnormal ∧ 0x0001 ≤ h.toNat % 2 ^ 15 ∧ h.toNat % 2 ^ 15 ≤ 0x03FF) ∨
      (halfClass h = .normal ∧ 0x0400 ≤ h.toNat % 2 ^ 15 ∧ h.toNat % 2 ^ 15 ≤ 0x7BFF) ∨
      (halfClass h = .infinity ∧ h.toNat % 2 ^ 15 = 0x7C00) ∨
      (halfClass h = .nan ∧ 0x7C01 ≤ h.toNat % 2 ^ 15) := by
  have hlow := half_low_bits_eq h
  have hexp := (halfExp h).isLt
  have hmant := (halfMant h).isLt
  have hE31 : halfExp h = 31 ↔ (halfExp h).toNat = 31 := BitVec.toNat_inj.symm
  have hE0 : halfExp h = 0 ↔ (halfExp h).toNat = 0 := BitVec.toNat_inj.symm
  have hM0 : halfMant h = 0 ↔ (halfMant h).toNat = 0 := BitVec.toNat_inj.symm
  simp only [halfClass, hE31, hE0, hM0]
  split_ifs
  · exact .inr (.inr (.inr (.inl ⟨rfl, by omega⟩)))
  · exact .inr (.inr (.inr (.inr ⟨rfl, by omega⟩)))
  · exact .inl ⟨rfl, by omega⟩
  · exact .inr (.inl ⟨rfl, by omega, by omega⟩)
  · exact .inr (.inr (.inl ⟨rfl, by omega, by omega⟩))

/-- Settles O3: the five ranges are disjoint, so the class and the range name each other. -/
theorem halfClassesArePatternRanges : Obligations.HalfClassesArePatternRanges := by
  intro h
  rcases halfClass_cases h with ⟨e, hr⟩ | ⟨e, hr⟩ | ⟨e, hr⟩ | ⟨e, hr⟩ | ⟨e, hr⟩ <;> simp [e] <;> omega

/-! ## Program lines (30_encoding.md R57, R58) -/

/-- Settles O47: a line with a literal takes the literal's pattern, and every other line is an operation as it stands. -/
theorem spellingsStandForTheirOperations : Obligations.SpellingsStandForTheirOperations := by
  intro l x h buf st offset hl
  have hmap : ∀ f : Single → Instr, l.bits.map f = some (f x) := fun f => by rw [hl, Option.map_some]
  exact ⟨hmap _, hmap _, rfl, rfl, rfl, rfl, rfl, hmap _, hmap _, hmap _, rfl, rfl, rfl, rfl, rfl, hmap _, rfl, rfl, rfl⟩

/-! ## Decimal literals (30_encoding.md R49) -/

/-- The magnitude of a finite binary32 pattern in units of `2^(-149)`, the smallest subnormal (00_scope.md R14). -/
def singleUnits (x : Single) : Nat :=
  if (singleExp x).toNat = 0 then (singleMant x).toNat
  else (2 ^ 23 + (singleMant x).toNat) * 2 ^ ((singleExp x).toNat - 1)

theorem singleUnits_subnormal {x : Single} (h : (singleExp x).toNat = 0) : singleUnits x = (singleMant x).toNat :=
  if_pos h

theorem singleUnits_normal {x : Single} (h : (singleExp x).toNat ≠ 0) :
    singleUnits x = (2 ^ 23 + (singleMant x).toNat) * 2 ^ ((singleExp x).toNat - 1) :=
  if_neg h

theorem singleMag_eq_units (x : Single) : singleMag x = singleUnits x / 2 ^ 149 := by
  by_cases hE : (singleExp x).toNat = 0
  · rw [singleMag_subnormal x _ hE rfl, singleUnits_subnormal hE, zpow_neg]
    ring
  · obtain ⟨e, he⟩ := Nat.exists_eq_succ_of_ne_zero hE
    have hexp : ((e + 1 : Nat) : ℤ) - 127 = (e : ℤ) - 126 := by push_cast; ring
    rw [singleMag_normal x (e + 1) _ e.succ_ne_zero he rfl, singleUnits_normal hE, he, hexp,
      zpow_sub₀ two_ne_zero, zpow_natCast, Nat.succ_sub_one]
    push_cast
    ring

theorem val32_eq_number_iff (x : Single) (negative : Bool) (q : ℚ) :
    val32 x = .number negative q ↔
      (singleExp x).toNat ≠ 255 ∧ (singleSign x == 1) = negative ∧ singleMag x = q := by
  have hE : singleExp x = 255 ↔ (singleExp x).toNat = 255 := BitVec.toNat_inj.symm
  unfold val32 singleClass
  simp only [hE]
  split_ifs with h255 <;> simp [h255]

/-- The value of a pattern is a given fraction exactly where the units of both, over a common denominator, are equal. -/
theorem val32_eq_fraction_iff (x : Single) (negative : Bool) (n d : Nat) (hd : d ≠ 0) :
    val32 x = .number negative ((n : ℚ) / d) ↔
      (singleExp x).toNat ≠ 255 ∧ singleSign x = (if negative then 1 else 0) ∧ singleUnits x * d = n * 2 ^ 149 := by
  have hsign : ∀ (s : BitVec 1) (b : Bool), (s == 1) = b ↔ s = if b then 1 else 0 := by decide
  have hd' : (d : ℚ) ≠ 0 := Nat.cast_ne_zero.2 hd
  have hmag : singleMag x = (n : ℚ) / d ↔ singleUnits x * d = n * 2 ^ 149 := by
    rw [singleMag_eq_units, div_eq_div_iff (by positivity) hd']
    exact_mod_cast Iff.rfl
  rw [val32_eq_number_iff, hsign, hmag]

/-! ### The pattern of exactly `n / 2^k` -/

theorem singleUnits_packSingle_subnormal (s : BitVec 1) (m : BitVec 23) : singleUnits (packSingle s 0 m) = m.toNat := by
  rw [singleUnits_subnormal (by rw [singleExp_packSingle]; rfl), singleMant_packSingle]

theorem toNat_ofNat_exp {E : Nat} (h : E ≤ 254) : (BitVec.ofNat 8 E).toNat = E := by
  rw [BitVec.toNat_ofNat]
  omega

/-- A normal pattern, from its exponent and its 24-bit significand. -/
theorem singleUnits_packSingle_normal (s : BitVec 1) {E q : Nat} (h1 : 1 ≤ E) (h2 : E ≤ 254) (hlo : 2 ^ 23 ≤ q)
    (hhi : q < 2 ^ 24) : singleUnits (packSingle s (BitVec.ofNat 8 E) (BitVec.ofNat 23 q)) = q * 2 ^ (E - 1) := by
  have hq : 2 ^ 23 + (BitVec.ofNat 23 q).toNat = q := by
    rw [BitVec.toNat_ofNat]
    omega
  rw [singleUnits_normal (by rw [singleExp_packSingle, toNat_ofNat_exp h2]; omega), singleExp_packSingle,
    singleMant_packSingle, toNat_ofNat_exp h2, hq]

theorem exactSingle_zero (s : BitVec 1) (k : Nat) : exactSingle s 0 k = some (packSingle s 0 0) := by
  simp [exactSingle]

/-- A normal pattern, `msb(n) + 127 = E + k`: its 24-bit significand is `n × 2^23 / 2^msb(n)`, where that is whole. -/
theorem exactSingle_normal (s : BitVec 1) {n k E : Nat} (hn : n ≠ 0) (hE : n.log2 + 127 = E + k) (h1 : 1 ≤ E)
    (h2 : E ≤ 254) :
    exactSingle s n k =
      if n * 2 ^ 23 % 2 ^ n.log2 = 0 then
        some (packSingle s (BitVec.ofNat 8 E) (BitVec.ofNat 23 (n * 2 ^ 23 / 2 ^ n.log2)))
      else none := by
  have he : (n.log2 : Int) - k + Config.biasF = (E : Int) := by rw [Config.biasF]; omega
  simp only [exactSingle, he, Nat.shiftLeft_eq, BitVec.ofInt_natCast]
  rw [if_neg hn, if_neg (by omega), if_pos (by omega)]

/-- A subnormal pattern, `msb(n) + 127 ≤ k`: its mantissa is `n × 2^149 / 2^k`, where that is whole. -/
theorem exactSingle_subnormal (s : BitVec 1) {n k : Nat} (hn : n ≠ 0) (hk : n.log2 + 127 ≤ k) :
    exactSingle s n k =
      if n * 2 ^ 149 % 2 ^ k = 0 then some (packSingle s 0 (BitVec.ofNat 23 (n * 2 ^ 149 / 2 ^ k))) else none := by
  have he : (n.log2 : Int) - k + Config.biasF ≤ 0 := by rw [Config.biasF]; omega
  simp only [exactSingle, Nat.shiftLeft_eq]
  rw [if_neg hn, if_neg (by omega), if_neg (by omega)]

/-- A value of `2^128` or more has no pattern. -/
theorem exactSingle_large (s : BitVec 1) {n k : Nat} (hn : n ≠ 0) (hk : 255 + k ≤ n.log2 + 127) :
    exactSingle s n k = none := by
  have he : (n.log2 : Int) - k + Config.biasF ≥ 255 := by rw [Config.biasF]; omega
  simp only [exactSingle]
  rw [if_neg hn, if_pos he]

/-- `n × 2^23 / 2^msb(n)` has 24 bits. -/
theorem significand_bounds {n : Nat} (hn : n ≠ 0) :
    2 ^ 23 ≤ n * 2 ^ 23 / 2 ^ n.log2 ∧ n * 2 ^ 23 / 2 ^ n.log2 < 2 ^ 24 := by
  have hlo := Nat.log2_self_le hn
  have hhi := Nat.lt_log2_self (n := n)
  rw [Nat.le_div_iff_mul_le (by positivity), Nat.div_lt_iff_lt_mul (by positivity)]
  rw [pow_succ] at hhi
  omega

/-- Below the normal range the mantissa `n × 2^149 / 2^k` has at most 23 bits. -/
theorem subnormal_mantissa_lt {n k : Nat} (hk : n.log2 + 127 ≤ k) : n * 2 ^ 149 / 2 ^ k < 2 ^ 23 := by
  rw [Nat.div_lt_iff_lt_mul (by positivity), ← pow_add]
  calc n * 2 ^ 149 < 2 ^ (n.log2 + 1) * 2 ^ 149 := Nat.mul_lt_mul_of_pos_right Nat.lt_log2_self (by positivity)
    _ = 2 ^ (n.log2 + 1 + 149) := (pow_add _ _ _).symm
    _ ≤ 2 ^ (23 + k) := Nat.pow_le_pow_right two_pos (by omega)

/-- The pattern found below the normal range has the value. -/
theorem exactSingle_sound_subnormal {s : BitVec 1} {n k : Nat} {x : Single} (hn : n ≠ 0) (hk : n.log2 + 127 ≤ k)
    (h : exactSingle s n k = some x) :
    (singleExp x).toNat ≠ 255 ∧ singleSign x = s ∧ singleUnits x * 2 ^ k = n * 2 ^ 149 := by
  rw [exactSingle_subnormal s hn hk] at h
  split_ifs at h with hmod
  obtain rfl := Option.some_inj.1 h
  refine ⟨by simp, singleSign_packSingle _ _ _, ?_⟩
  rw [singleUnits_packSingle_subnormal, BitVec.toNat_ofNat, Nat.mod_eq_of_lt (subnormal_mantissa_lt hk),
    Nat.div_mul_cancel (Nat.dvd_of_mod_eq_zero hmod)]

/-- The pattern found in the normal range has the value. -/
theorem exactSingle_sound_normal {s : BitVec 1} {n k E : Nat} {x : Single} (hn : n ≠ 0) (hE : n.log2 + 127 = E + k)
    (h1 : 1 ≤ E) (h2 : E ≤ 254) (h : exactSingle s n k = some x) :
    (singleExp x).toNat ≠ 255 ∧ singleSign x = s ∧ singleUnits x * 2 ^ k = n * 2 ^ 149 := by
  rw [exactSingle_normal s hn hE h1 h2] at h
  split_ifs at h with hmod
  obtain rfl := Option.some_inj.1 h
  obtain ⟨hlo, hhi⟩ := significand_bounds hn
  refine ⟨by rw [singleExp_packSingle, toNat_ofNat_exp h2]; omega, singleSign_packSingle _ _ _, ?_⟩
  calc _ = n * 2 ^ 23 / 2 ^ n.log2 * 2 ^ (E - 1 + k) := by
        rw [singleUnits_packSingle_normal s h1 h2 hlo hhi, mul_assoc, pow_add]
    _ = n * 2 ^ 23 / 2 ^ n.log2 * 2 ^ n.log2 * 2 ^ 126 := by
        rw [show E - 1 + k = n.log2 + 126 by omega, pow_add, mul_assoc]
    _ = n * 2 ^ 149 := by rw [Nat.div_mul_cancel (Nat.dvd_of_mod_eq_zero hmod), mul_assoc, ← pow_add]

/-- The pattern is finite, has the sign, and has exactly the value, by the range of `msb(n) - k`. -/
theorem exactSingle_sound {s : BitVec 1} {n k : Nat} {x : Single} (h : exactSingle s n k = some x) :
    (singleExp x).toNat ≠ 255 ∧ singleSign x = s ∧ singleUnits x * 2 ^ k = n * 2 ^ 149 := by
  by_cases hn : n = 0
  · subst hn
    obtain rfl := Option.some_inj.1 ((exactSingle_zero s k).symm.trans h)
    exact ⟨by simp, singleSign_packSingle _ _ _, by rw [singleUnits_packSingle_subnormal]; simp⟩
  by_cases hk : n.log2 + 127 ≤ k
  · exact exactSingle_sound_subnormal hn hk h
  by_cases hlarge : 255 + k ≤ n.log2 + 127
  · rw [exactSingle_large s hn hlarge] at h
    cases h
  · exact exactSingle_sound_normal (E := n.log2 + 127 - k) hn (by omega) (by omega) (by omega) h

theorem log2_mul_two_pow {n : Nat} (hn : n ≠ 0) (j : Nat) : (n * 2 ^ j).log2 = n.log2 + j := by
  induction j with
  | zero => simp
  | succ j ih => rw [pow_succ, ← mul_assoc, mul_comm, Nat.log2_two_mul (by positivity), ih, add_assoc]

/-- A zero or subnormal pattern is found from its own value. -/
theorem exactSingle_complete_subnormal {n k : Nat} {x : Single} (hE : (singleExp x).toNat = 0)
    (h : singleUnits x * 2 ^ k = n * 2 ^ 149) : exactSingle (singleSign x) n k = some x := by
  rw [singleUnits_subnormal hE] at h
  have hexp : singleExp x = 0 := BitVec.eq_of_toNat_eq hE
  by_cases hn : n = 0
  · subst hn
    have hmant : singleMant x = 0 := BitVec.eq_of_toNat_eq (by simpa using h)
    rw [exactSingle_zero, ← hexp, ← hmant, packSingle_fields]
  · have hlog : n.log2 + 149 < 23 + k := by
      rw [← log2_mul_two_pow hn, ← h, Nat.log2_lt (by rw [h]; positivity), pow_add]
      exact Nat.mul_lt_mul_of_pos_right (singleMant x).isLt (by positivity)
    rw [exactSingle_subnormal _ hn (by omega), ← h, Nat.mul_mod_left, if_pos rfl, Nat.mul_div_cancel _ (by positivity),
      BitVec.ofNat_toNat, BitVec.setWidth_eq, ← hexp, packSingle_fields]

/-- A normal pattern is found from its own value: its significand has its leading one at bit 23, which gives `msb(n)`. -/
theorem exactSingle_complete_normal {n k : Nat} {x : Single} (h0 : (singleExp x).toNat ≠ 0)
    (h255 : (singleExp x).toNat ≠ 255) (h : singleUnits x * 2 ^ k = n * 2 ^ 149) :
    exactSingle (singleSign x) n k = some x := by
  have hM := (singleMant x).isLt
  have hE := (singleExp x).isLt
  rw [singleUnits_normal h0, mul_assoc, ← pow_add] at h
  have hn : n ≠ 0 := by
    rintro rfl
    simp at h
  have hsig : (2 ^ 23 + (singleMant x).toNat).log2 = 23 := (Nat.log2_eq_iff (by omega)).2 (by omega)
  have hlog : n.log2 + 149 = 23 + ((singleExp x).toNat - 1 + k) := by
    rw [← log2_mul_two_pow hn, ← h, log2_mul_two_pow (by omega), hsig]
  have hq : n * 2 ^ 23 = (2 ^ 23 + (singleMant x).toNat) * 2 ^ n.log2 := by
    refine Nat.eq_of_mul_eq_mul_right (Nat.two_pow_pos 126) ?_
    rw [mul_assoc, mul_assoc, ← pow_add, ← pow_add, ← h]
    congr 2
    omega
  have hmant : BitVec.ofNat 23 (2 ^ 23 + (singleMant x).toNat) = singleMant x := by
    apply BitVec.eq_of_toNat_eq
    rw [BitVec.toNat_ofNat]
    omega
  rw [exactSingle_normal _ hn (E := (singleExp x).toNat) (by omega) (by omega) (by omega), hq, Nat.mul_mod_left,
    if_pos rfl, Nat.mul_div_cancel _ (by positivity), hmant, BitVec.ofNat_toNat, BitVec.setWidth_eq, packSingle_fields]

/-- The pattern of exactly `n / 2^k` is the finite one of that sign and value. -/
theorem exactSingle_eq_some_iff (s : BitVec 1) (n k : Nat) (x : Single) :
    exactSingle s n k = some x ↔
      (singleExp x).toNat ≠ 255 ∧ singleSign x = s ∧ singleUnits x * 2 ^ k = n * 2 ^ 149 := by
  refine ⟨exactSingle_sound, ?_⟩
  rintro ⟨hfin, rfl, h⟩
  by_cases hE : (singleExp x).toNat = 0
  · exact exactSingle_complete_subnormal hE h
  · exact exactSingle_complete_normal hE hfin h

/-! ### Decimal fractions -/

/-- Where `5^places` divides the digits, the decimal fraction is `digits / 5^places` over a power of two. -/
theorem units_decimal_iff (u n places : Nat) :
    u * 10 ^ places = 5 ^ places * n * 2 ^ 149 ↔ u * 2 ^ places = n * 2 ^ 149 := by
  have hl : u * 10 ^ places = 5 ^ places * (u * 2 ^ places) := by
    rw [show 10 = 5 * 2 from rfl, mul_pow, mul_left_comm]
  rw [hl, mul_assoc, Nat.mul_right_inj (by positivity)]

/-- A decimal fraction that is a whole number of units has digits that `5^places` divides: 5 and 2 are coprime. -/
theorem five_pow_dvd_digits {u digits places : Nat} (h : u * 10 ^ places = digits * 2 ^ 149) : 5 ^ places ∣ digits := by
  have hco : Nat.Coprime (5 ^ places) (2 ^ 149) := Nat.Coprime.pow _ _ (by decide)
  have hdvd : 5 ^ places ∣ u * 10 ^ places := Dvd.dvd.mul_left (pow_dvd_pow_of_dvd (by decide) places) u
  exact hco.dvd_of_dvd_mul_right (h ▸ hdvd)

/-- Settles O46: both sides say that the pattern is finite, has the sign, and has the literal's units; without `5^places`
among the factors of the digits no pattern has them. -/
theorem decimalLiteralIsExact : Obligations.DecimalLiteralIsExact := by
  intro negative digits places x
  have hval := val32_eq_fraction_iff x negative digits (10 ^ places) (by positivity)
  rw [Nat.cast_pow, Nat.cast_ofNat] at hval
  rw [hval, Literal.bits]
  by_cases hdvd : 5 ^ places ∣ digits
  · obtain ⟨n, rfl⟩ := hdvd
    rw [if_pos (Nat.mul_mod_right _ _), Nat.mul_div_cancel_left _ (by positivity), exactSingle_eq_some_iff,
      units_decimal_iff]
  · rw [if_neg fun h => hdvd (Nat.dvd_of_mod_eq_zero h)]
    exact iff_of_false nofun fun ⟨_, _, h⟩ => hdvd (five_pow_dvd_digits h)

end Sys2Proof.Machine
end

section
/-! SUPPORT. The statements about conversion (40_convert.md): rounding, the encoder as rounding of a magnitude to the low 15
bits of a half, the decoder as an exact widening, and the round trips. -/

namespace Sys2Proof.Machine

/-! ## Rounding (40_convert.md R61) -/

theorem rne_eq (sig sh : Nat) :
    rne sig sh =
      if sig % 2 ^ sh > 2 ^ (sh - 1) ∨ (sig % 2 ^ sh = 2 ^ (sh - 1) ∧ sig / 2 ^ sh % 2 = 1) then sig / 2 ^ sh + 1
      else sig / 2 ^ sh := by
  rw [rne, Nat.shiftRight_eq_div_pow]

/-- The rounded value is within half a step `2^sh` of the operand, and at exactly half a step it is even. -/
theorem rne_bounds (sig : Nat) {sh : Nat} (hsh : 1 ≤ sh) :
    (2 * rne sig sh * 2 ^ sh ≤ 2 * sig + 2 ^ sh ∧ 2 * sig ≤ 2 * rne sig sh * 2 ^ sh + 2 ^ sh) ∧
      (2 * rne sig sh * 2 ^ sh = 2 * sig + 2 ^ sh ∨ 2 * sig = 2 * rne sig sh * 2 ^ sh + 2 ^ sh → rne sig sh % 2 = 0) := by
  have hstep : 2 ^ sh = 2 * 2 ^ (sh - 1) := by rw [← pow_succ', Nat.sub_add_cancel hsh]
  have hlt := Nat.mod_lt sig (Nat.two_pow_pos sh)
  have hdiv := Nat.div_add_mod' sig (2 ^ sh)
  rw [rne_eq]
  split_ifs with hup
  · rw [mul_assoc, add_mul]
    omega
  · rw [mul_assoc]
    omega

/-- Rounding compared with a bound: the operand lies below the midpoint above the bound, or on it where the bound is even. -/
theorem rne_le_iff (sig : Nat) {sh : Nat} (hsh : 1 ≤ sh) (k : Nat) :
    rne sig sh ≤ k ↔ 2 * sig < (2 * k + 1) * 2 ^ sh ∨ (2 * sig = (2 * k + 1) * 2 ^ sh ∧ k % 2 = 0) := by
  obtain ⟨⟨hlo, hhi⟩, heven⟩ := rne_bounds sig hsh
  have hpos := Nat.two_pow_pos sh
  generalize rne sig sh = n at *
  generalize 2 ^ sh = p at *
  have hcases : n + 1 ≤ k ∨ n = k ∨ n = k + 1 ∨ k + 2 ≤ n := by omega
  rcases hcases with h | rfl | rfl | h
  · have := Nat.mul_le_mul_right p h
    refine iff_of_true (by omega) (.inl ?_)
    linarith
  · rw [add_mul, one_mul]
    omega
  · rw [mul_add, add_mul] at hlo hhi heven
    rw [add_mul]
    omega
  · have := Nat.mul_le_mul_right p h
    refine iff_of_false (by omega) (not_or.2 ⟨?_, fun h' => ?_⟩) <;> linarith

/-- Another natural number of steps is at least as far from the operand as the rounded one, and as near only where that is
even. -/
theorem rne_nearest (sig : Nat) {sh : Nat} (hsh : 1 ≤ sh) {n : Nat} (hn : n ≠ rne sig sh) :
    |(sig : ℤ) - rne sig sh * 2 ^ sh| ≤ |(sig : ℤ) - n * 2 ^ sh| ∧
      (|(sig : ℤ) - rne sig sh * 2 ^ sh| = |(sig : ℤ) - n * 2 ^ sh| → rne sig sh % 2 = 0) := by
  obtain ⟨⟨hlo, hhi⟩, heven⟩ := rne_bounds sig hsh
  have hp : (2 : ℤ) ^ sh = (2 ^ sh : Nat) := by norm_cast
  rw [hp]
  generalize rne sig sh = k at *
  generalize 2 ^ sh = p at *
  rw [mul_assoc] at hlo hhi heven
  have hstep : (n + 1) * p ≤ k * p ∨ (k + 1) * p ≤ n * p := by
    rcases Nat.lt_or_gt_of_ne hn with h | h
    · exact .inl (Nat.mul_le_mul_right p h)
    · exact .inr (Nat.mul_le_mul_right p h)
  rw [Nat.succ_mul, Nat.succ_mul] at hstep
  have hk := abs_cases ((sig : ℤ) - k * p)
  have hn := abs_cases ((sig : ℤ) - n * p)
  omega

theorem rne_eq_zero_of_wide {sig sh : Nat} (hsh : 25 ≤ sh) (hsig : sig < 2 ^ 24) : rne sig sh = 0 := by
  have hpow : 2 ^ 25 ≤ 2 ^ sh := Nat.pow_le_pow_right two_pos hsh
  refine Nat.le_zero.1 ((rne_le_iff sig (by omega) 0).2 (.inl ?_))
  omega

/-- Settles O4: the rounded value is within half a step, and every other number of steps is a whole step away from it. -/
theorem roundingIsToNearestEven : Obligations.RoundingIsToNearestEven := by
  intro sig sh hsh
  refine ⟨rne_eq sig sh, fun n => ?_, fun n hn => (rne_nearest sig hsh hn).2, rne_eq_zero_of_wide⟩
  by_cases hn : n = rne sig sh
  · rw [hn]
  · exact (rne_nearest sig hsh hn).1

/-! ## Meanings (40_convert.md R67, R71) -/

/-- Settles O5: the meaning of `ENC`. -/
theorem encAnswersEncoderResult : Obligations.EncAnswersEncoderResult := fun _ _ => rfl

/-- Settles O11: the meaning of `DEC`. -/
theorem decAnswersDecoderResult : Obligations.DecAnswersDecoderResult := fun _ _ => rfl

/-! ## Halves by their low 15 bits (30_encoding.md R52) -/

/-- The half of a sign and the low 15 bits, exponent and mantissa field together. -/
def halfOfLow (s : BitVec 1) (n : Nat) : Half := s ++ BitVec.ofNat 15 n

theorem toNat_halfOfLow (s : BitVec 1) {n : Nat} (hn : n < 2 ^ 15) : (halfOfLow s n).toNat = s.toNat * 2 ^ 15 + n := by
  rw [halfOfLow, toNat_append_add, BitVec.toNat_ofNat, Nat.mod_eq_of_lt hn]

theorem halfOfLow_mod (s : BitVec 1) {n : Nat} (hn : n < 2 ^ 15) : (halfOfLow s n).toNat % 2 ^ 15 = n := by
  rw [toNat_halfOfLow s hn]
  omega

@[simp] theorem halfSign_halfOfLow (s : BitVec 1) (n : Nat) : halfSign (halfOfLow s n) = s := by
  have hs := s.isLt
  have hn := (BitVec.ofNat 15 n).isLt
  apply BitVec.eq_of_toNat_eq
  rw [toNat_halfSign, halfOfLow, toNat_append_add]
  omega

theorem halfExp_halfOfLow (s : BitVec 1) {n : Nat} (hn : n < 2 ^ 15) : (halfExp (halfOfLow s n)).toNat = n / 2 ^ 10 := by
  rw [toNat_halfExp, toNat_halfOfLow s hn]
  omega

theorem halfMant_halfOfLow (s : BitVec 1) {n : Nat} (hn : n < 2 ^ 15) : (halfMant (halfOfLow s n)).toNat = n % 2 ^ 10 := by
  rw [toNat_halfMant, toNat_halfOfLow s hn]
  omega

theorem packHalf_eq_halfOfLow (s : BitVec 1) (e : BitVec 5) (m : BitVec 10) :
    packHalf s e m = halfOfLow s (e.toNat * 2 ^ 10 + m.toNat) := by
  have he := e.isLt
  have hm := m.isLt
  apply BitVec.eq_of_toNat_eq
  rw [toNat_packHalf, toNat_halfOfLow s (by omega)]
  omega

theorem halfZero_eq (s : BitVec 1) : halfZero s = halfOfLow s 0 := packHalf_eq_halfOfLow s _ _
theorem halfInfinity_eq (s : BitVec 1) : halfInfinity s = halfOfLow s 0x7C00 := packHalf_eq_halfOfLow s _ _

/-- The classes of halves an encoded finite operand can have, by the low 15 bits. -/
theorem halfClass_halfOfLow (s : BitVec 1) {n : Nat} (hn : n ≤ 0x7C00) :
    (halfClass (halfOfLow s n) = .zero ↔ n = 0) ∧ (halfClass (halfOfLow s n) = .infinity ↔ n = 0x7C00) := by
  obtain ⟨hzero, -, -, hinf, -⟩ := halfClassesArePatternRanges (halfOfLow s n)
  rw [hzero, hinf, halfOfLow_mod s (by omega)]
  exact ⟨Iff.rfl, Iff.rfl⟩

/-! ## Classes by the fields (30_encoding.md R54, R55) -/

/-- The class of a half, by its fields as numbers (30_encoding.md R54). -/
theorem halfClass_field_cases (h : Half) :
    (halfClass h = .zero ∧ (halfExp h).toNat = 0 ∧ (halfMant h).toNat = 0) ∨
      (halfClass h = .subnormal ∧ (halfExp h).toNat = 0 ∧ (halfMant h).toNat ≠ 0) ∨
      (halfClass h = .normal ∧ (halfExp h).toNat ≠ 0 ∧ (halfExp h).toNat ≠ 31) ∨
      (halfClass h = .infinity ∧ (halfExp h).toNat = 31 ∧ (halfMant h).toNat = 0) ∨
      (halfClass h = .nan ∧ (halfExp h).toNat = 31 ∧ (halfMant h).toNat ≠ 0) := by
  have hlow := half_low_bits_eq h
  have hmant := (halfMant h).isLt
  rcases halfClass_cases h with ⟨c, hr⟩ | ⟨c, hr⟩ | ⟨c, hr⟩ | ⟨c, hr⟩ | ⟨c, hr⟩
  · exact .inl ⟨c, by omega, by omega⟩
  · exact .inr (.inl ⟨c, by omega, by omega⟩)
  · exact .inr (.inr (.inl ⟨c, by omega, by omega⟩))
  · exact .inr (.inr (.inr (.inl ⟨c, by omega, by omega⟩)))
  · exact .inr (.inr (.inr (.inr ⟨c, by omega, by omega⟩)))

theorem halfClass_infinity_iff (h : Half) :
    halfClass h = .infinity ↔ (halfExp h).toNat = 31 ∧ (halfMant h).toNat = 0 := by
  rcases halfClass_field_cases h with ⟨c, h'⟩ | ⟨c, h'⟩ | ⟨c, h'⟩ | ⟨c, h'⟩ | ⟨c, h'⟩ <;> simp [c, h']

theorem halfClass_nan_iff (h : Half) : halfClass h = .nan ↔ (halfExp h).toNat = 31 ∧ (halfMant h).toNat ≠ 0 := by
  rcases halfClass_field_cases h with ⟨c, h'⟩ | ⟨c, h'⟩ | ⟨c, h'⟩ | ⟨c, h'⟩ | ⟨c, h'⟩ <;> simp [c, h']

theorem halfClass_finite_iff (h : Half) : (halfClass h).finite = true ↔ (halfExp h).toNat ≠ 31 := by
  rcases halfClass_field_cases h with ⟨c, h'⟩ | ⟨c, h'⟩ | ⟨c, h'⟩ | ⟨c, h'⟩ | ⟨c, h'⟩ <;> simp [c, h', Class.finite]

/-- The class of a binary32 pattern, by its fields as numbers (30_encoding.md R55). -/
theorem singleClass_cases (x : Single) :
    (singleClass x = .zero ∧ (singleExp x).toNat = 0 ∧ (singleMant x).toNat = 0) ∨
      (singleClass x = .subnormal ∧ (singleExp x).toNat = 0 ∧ (singleMant x).toNat ≠ 0) ∨
      (singleClass x = .normal ∧ (singleExp x).toNat ≠ 0 ∧ (singleExp x).toNat ≠ 255) ∨
      (singleClass x = .infinity ∧ (singleExp x).toNat = 255 ∧ (singleMant x).toNat = 0) ∨
      (singleClass x = .nan ∧ (singleExp x).toNat = 255 ∧ (singleMant x).toNat ≠ 0) := by
  have hE255 : singleExp x = 255 ↔ (singleExp x).toNat = 255 := BitVec.toNat_inj.symm
  have hE0 : singleExp x = 0 ↔ (singleExp x).toNat = 0 := BitVec.toNat_inj.symm
  have hM0 : singleMant x = 0 ↔ (singleMant x).toNat = 0 := BitVec.toNat_inj.symm
  simp only [singleClass, hE255, hE0, hM0]
  split_ifs with h255 hM h0 hM'
  · exact .inr (.inr (.inr (.inl ⟨rfl, h255, hM⟩)))
  · exact .inr (.inr (.inr (.inr ⟨rfl, h255, hM⟩)))
  · exact .inl ⟨rfl, h0, hM'⟩
  · exact .inr (.inl ⟨rfl, h0, hM'⟩)
  · exact .inr (.inr (.inl ⟨rfl, h0, h255⟩))

theorem singleClass_finite_iff (x : Single) : (singleClass x).finite = true ↔ (singleExp x).toNat ≠ 255 := by
  rcases singleClass_cases x with ⟨c, h⟩ | ⟨c, h⟩ | ⟨c, h⟩ | ⟨c, h⟩ | ⟨c, h⟩ <;> simp [c, h, Class.finite]

theorem singleClass_infinity_iff (x : Single) :
    singleClass x = .infinity ↔ (singleExp x).toNat = 255 ∧ (singleMant x).toNat = 0 := by
  rcases singleClass_cases x with ⟨c, h⟩ | ⟨c, h⟩ | ⟨c, h⟩ | ⟨c, h⟩ | ⟨c, h⟩ <;> simp [c, h]

theorem singleClass_nan_iff (x : Single) :
    singleClass x = .nan ↔ (singleExp x).toNat = 255 ∧ (singleMant x).toNat ≠ 0 := by
  rcases singleClass_cases x with ⟨c, h⟩ | ⟨c, h⟩ | ⟨c, h⟩ | ⟨c, h⟩ | ⟨c, h⟩ <;> simp [c, h]

/-! ## Magnitudes in units (00_scope.md R13, R14) -/

/-- The magnitude of a finite half in units of `2^(-24)`, the smallest subnormal (00_scope.md R13). -/
def halfUnits (h : Half) : Nat :=
  if (halfExp h).toNat = 0 then (halfMant h).toNat
  else (2 ^ 10 + (halfMant h).toNat) * 2 ^ ((halfExp h).toNat - 1)

theorem halfUnits_subnormal {h : Half} (he : (halfExp h).toNat = 0) : halfUnits h = (halfMant h).toNat := if_pos he

theorem halfUnits_normal {h : Half} (he : (halfExp h).toNat ≠ 0) :
    halfUnits h = (2 ^ 10 + (halfMant h).toNat) * 2 ^ ((halfExp h).toNat - 1) := if_neg he

theorem halfMag_eq_units (h : Half) : halfMag h = halfUnits h / 2 ^ 24 := by
  by_cases he : (halfExp h).toNat = 0
  · rw [halfMag_subnormal h _ he rfl, halfUnits_subnormal he, zpow_neg]
    ring
  · obtain ⟨e, hs⟩ := Nat.exists_eq_succ_of_ne_zero he
    have hexp : ((e + 1 : Nat) : ℤ) - 15 = (e : ℤ) - 14 := by push_cast; ring
    rw [halfMag_normal h (e + 1) _ e.succ_ne_zero hs rfl, halfUnits_normal he, hs, hexp, zpow_sub₀ two_ne_zero,
      zpow_natCast, Nat.succ_sub_one]
    push_cast
    ring

theorem halfUnits_lt (h : Half) : halfUnits h < 2 ^ (10 + (halfExp h).toNat) := by
  have hm := (halfMant h).isLt
  by_cases he : (halfExp h).toNat = 0
  · rw [halfUnits_subnormal he, he]
    exact hm
  · calc halfUnits h = (2 ^ 10 + (halfMant h).toNat) * 2 ^ ((halfExp h).toNat - 1) := halfUnits_normal he
      _ < 2 ^ 11 * 2 ^ ((halfExp h).toNat - 1) := Nat.mul_lt_mul_of_pos_right (by omega) (Nat.two_pow_pos _)
      _ = 2 ^ (10 + (halfExp h).toNat) := by rw [← pow_add]; congr 1; omega

theorem two_pow_le_halfUnits {h : Half} (he : (halfExp h).toNat ≠ 0) : 2 ^ (9 + (halfExp h).toNat) ≤ halfUnits h :=
  calc 2 ^ (9 + (halfExp h).toNat) = 2 ^ 10 * 2 ^ ((halfExp h).toNat - 1) := by rw [← pow_add]; congr 1; omega
    _ ≤ (2 ^ 10 + (halfMant h).toNat) * 2 ^ ((halfExp h).toNat - 1) := Nat.mul_le_mul_right _ (Nat.le_add_right _ _)
    _ = halfUnits h := (halfUnits_normal he).symm

/-- A half of a larger exponent field has a larger magnitude. -/
theorem halfUnits_lt_of_exp_lt {g h : Half} (he : (halfExp g).toNat < (halfExp h).toNat) : halfUnits g < halfUnits h :=
  calc halfUnits g < 2 ^ (10 + (halfExp g).toNat) := halfUnits_lt g
    _ ≤ 2 ^ (9 + (halfExp h).toNat) := Nat.pow_le_pow_right two_pos (by omega)
    _ ≤ halfUnits h := two_pow_le_halfUnits (by omega)

/-- A half is its sign and its magnitude. -/
theorem half_eq_of_units {g h : Half} (hs : halfSign g = halfSign h) (hu : halfUnits g = halfUnits h) : g = h := by
  have he : (halfExp g).toNat = (halfExp h).toNat := by
    rcases Nat.lt_trichotomy (halfExp g).toNat (halfExp h).toNat with hlt | heq | hgt
    · exact absurd hu (halfUnits_lt_of_exp_lt hlt).ne
    · exact heq
    · exact absurd hu (halfUnits_lt_of_exp_lt hgt).ne'
  have hm : (halfMant g).toNat = (halfMant h).toNat := by
    by_cases h0 : (halfExp g).toNat = 0
    · rwa [halfUnits_subnormal h0, halfUnits_subnormal (he ▸ h0)] at hu
    · rw [halfUnits_normal h0, halfUnits_normal (he ▸ h0), he] at hu
      exact Nat.add_left_cancel (Nat.eq_of_mul_eq_mul_right (Nat.two_pow_pos _) hu)
  rw [← packHalf_fields g, ← packHalf_fields h, hs, BitVec.eq_of_toNat_eq he, BitVec.eq_of_toNat_eq hm]

/-- A half whose exponent field exceeds `j` is a whole number of steps `2^j`. -/
theorem two_pow_dvd_halfUnits {h : Half} {j : Nat} (hj : j < (halfExp h).toNat) : 2 ^ j ∣ halfUnits h := by
  rw [halfUnits_normal (by omega)]
  exact Dvd.dvd.mul_left (pow_dvd_pow 2 (by omega)) _

/-- A rounded significand `k` of the binade `j`, carries included, packs to `k` steps `2^j`. -/
theorem halfUnits_halfOfLow (s : BitVec 1) {j k : Nat} (hk : k ≤ 2 ^ 11) (hj : j = 0 ∨ 2 ^ 10 ≤ k)
    (hn : 2 ^ 10 * j + k < 2 ^ 15) : halfUnits (halfOfLow s (2 ^ 10 * j + k)) = k * 2 ^ j := by
  have he := halfExp_halfOfLow s hn
  have hm := halfMant_halfOfLow s hn
  rcases Nat.lt_or_ge k (2 ^ 10) with hsub | hge
  · obtain rfl : j = 0 := by omega
    rw [halfUnits_subnormal (by omega), hm]
    omega
  rcases Nat.lt_or_ge k (2 ^ 11) with hlt | hge'
  · rw [halfUnits_normal (by omega), he, hm, show (2 ^ 10 * j + k) / 2 ^ 10 - 1 = j by omega]
    congr 1
    omega
  · rw [halfUnits_normal (by omega), he, hm, show (2 ^ 10 * j + k) / 2 ^ 10 - 1 = j + 1 by omega, pow_succ' 2 j,
      ← mul_assoc]
    congr 1
    omega

/-! ### binary32 -/

/-- The significand of a finite binary32 pattern, its implicit bit included. -/
def singleSig (x : Single) : Nat :=
  if (singleExp x).toNat = 0 then (singleMant x).toNat else 2 ^ 23 + (singleMant x).toNat

theorem singleSig_lt (x : Single) : singleSig x < 2 ^ 24 := by
  have := (singleMant x).isLt
  rw [singleSig]
  split <;> omega

theorem singleSig_normal {x : Single} (h : (singleExp x).toNat ≠ 0) : singleSig x = 2 ^ 23 + (singleMant x).toNat := if_neg h

theorem singleUnits_eq_sig (x : Single) : singleUnits x = singleSig x * 2 ^ ((singleExp x).toNat - 1) := by
  rw [singleUnits, singleSig]
  split
  · next h => rw [h, Nat.zero_sub, pow_zero, mul_one]
  · rfl

theorem singleUnits_lt (x : Single) : singleUnits x < 2 ^ (23 + (singleExp x).toNat) := by
  have hm := (singleMant x).isLt
  by_cases hE : (singleExp x).toNat = 0
  · rw [singleUnits_subnormal hE, hE]
    exact hm
  · calc singleUnits x = singleSig x * 2 ^ ((singleExp x).toNat - 1) := singleUnits_eq_sig x
      _ < 2 ^ 24 * 2 ^ ((singleExp x).toNat - 1) := Nat.mul_lt_mul_of_pos_right (singleSig_lt x) (Nat.two_pow_pos _)
      _ = 2 ^ (23 + (singleExp x).toNat) := by rw [← pow_add]; congr 1; omega

theorem two_pow_le_singleUnits {x : Single} (hE : (singleExp x).toNat ≠ 0) : 2 ^ (22 + (singleExp x).toNat) ≤ singleUnits x :=
  calc 2 ^ (22 + (singleExp x).toNat) = 2 ^ 23 * 2 ^ ((singleExp x).toNat - 1) := by rw [← pow_add]; congr 1; omega
    _ ≤ (2 ^ 23 + (singleMant x).toNat) * 2 ^ ((singleExp x).toNat - 1) := Nat.mul_le_mul_right _ (Nat.le_add_right _ _)
    _ = singleUnits x := (singleUnits_normal hE).symm

theorem lt_singleExp_of_units {x : Single} {n : Nat} (h : 2 ^ (23 + n) ≤ singleUnits x) : n < (singleExp x).toNat := by
  have := (Nat.pow_lt_pow_iff_right (by decide)).1 (h.trans_lt (singleUnits_lt x))
  omega

theorem singleExp_lt_of_units {x : Single} {n : Nat} (hn : 0 < n) (h : singleUnits x < 2 ^ (22 + n)) :
    (singleExp x).toNat < n := by
  by_contra hge
  have := (Nat.pow_lt_pow_iff_right (by decide)).1 ((two_pow_le_singleUnits (x := x) (by omega)).trans_lt h)
  omega

/-- A finite binary32 pattern is its sign and its magnitude. -/
theorem single_eq_of_units {x y : Single} (hx : (singleExp x).toNat ≠ 255) (hy : (singleExp y).toNat ≠ 255)
    (hs : singleSign x = singleSign y) (hu : singleUnits x = singleUnits y) : x = y :=
  Option.some_inj.1 <|
    ((exactSingle_eq_some_iff (singleSign y) (singleUnits y) 149 x).2 ⟨hx, hs, by rw [hu]⟩).symm.trans
      ((exactSingle_eq_some_iff (singleSign y) (singleUnits y) 149 y).2 ⟨hy, rfl, rfl⟩)

/-! ## The encoder as one rounding (40_convert.md R65, R66)

Over its finite operands below the overflow range the encoder's subnormal and normal path are one: the significand is rounded
once, to `roundedSig` steps of the binade, and the low 15 bits are the binade and the rounded significand added up, whatever
carries. -/

/-- The binade of the result, 0 for the subnormal and the lowest normal halves. -/
def binade (x : Single) : Nat := (singleExp x).toNat - 113

/-- The shift of the rounding: 13 in the normal range, and `14 - e16` below it (40_convert.md R65). -/
def roundingShift (x : Single) : Nat := 13 + (112 - ((singleExp x).toNat - 1))

/-- The significand, rounded once (40_convert.md R61). -/
def roundedSig (x : Single) : Nat := rne (singleSig x) (roundingShift x)

/-- The low 15 bits of the encoder's half for a finite operand. -/
def encodedLow (x : Single) : Nat :=
  if 143 ≤ (singleExp x).toNat then 0x7C00 else 2 ^ 10 * binade x + roundedSig x

/-- The loss kind the encoder records for a finite operand. -/
def encodedLoss (x : Single) : Loss :=
  if encodedLow x = 0x7C00 then .overflow
  else if encodedLow x = 0 ∧ singleUnits x ≠ 0 then .underflow
  else .none

theorem one_le_roundingShift (x : Single) : 1 ≤ roundingShift x := by
  rw [roundingShift]
  omega

/-- The rounded significand counts steps of `2^(125 + binade)` units. -/
theorem shift_add_roundingShift (x : Single) :
    (singleExp x).toNat - 1 + roundingShift x = 125 + binade x := by
  rw [roundingShift, binade]
  omega

theorem encodedLow_eq {x : Single} (hE : (singleExp x).toNat < 143) : encodedLow x = 2 ^ 10 * binade x + roundedSig x :=
  if_neg (by omega)

/-- The rounded significand compared with a bound, in units of the operand. -/
theorem roundedSig_le_iff (x : Single) (k : Nat) :
    roundedSig x ≤ k ↔
      2 * singleUnits x < (2 * k + 1) * 2 ^ (125 + binade x) ∨
        (2 * singleUnits x = (2 * k + 1) * 2 ^ (125 + binade x) ∧ k % 2 = 0) := by
  have hpos := Nat.two_pow_pos ((singleExp x).toNat - 1)
  have hl : 2 * singleUnits x = 2 * singleSig x * 2 ^ ((singleExp x).toNat - 1) := by rw [singleUnits_eq_sig, mul_assoc]
  have hr : (2 * k + 1) * 2 ^ (125 + binade x) =
      (2 * k + 1) * 2 ^ roundingShift x * 2 ^ ((singleExp x).toNat - 1) := by
    rw [← shift_add_roundingShift, pow_add, mul_assoc, mul_comm (2 ^ roundingShift x)]
  rw [roundedSig, rne_le_iff _ (one_le_roundingShift x), hl, hr, Nat.mul_lt_mul_right hpos, Nat.mul_left_inj hpos.ne']

theorem roundedSig_le (x : Single) : roundedSig x ≤ 2 ^ 11 := by
  have hsig := singleSig_lt x
  have hpow : 2 ^ 13 ≤ 2 ^ roundingShift x := Nat.pow_le_pow_right two_pos (Nat.le_add_right _ _)
  exact (rne_le_iff _ (one_le_roundingShift x) _).2 (.inl (by omega))

/-- In the normal range the rounded significand keeps its leading one. -/
theorem le_roundedSig {x : Single} (hE : 113 ≤ (singleExp x).toNat) : 2 ^ 10 ≤ roundedSig x := by
  have hsh : roundingShift x = 13 := by rw [roundingShift]; omega
  have hsig := singleSig_normal (x := x) (by omega)
  by_contra hlt
  have := (rne_le_iff (singleSig x) (one_le_roundingShift x) (2 ^ 10 - 1)).1 (Nat.le_pred_of_lt (not_le.1 hlt))
  rw [hsh] at this
  omega

theorem binade_eq_zero_or_le (x : Single) : binade x = 0 ∨ 2 ^ 10 ≤ roundedSig x := by
  by_cases hE : 113 ≤ (singleExp x).toNat
  · exact .inr (le_roundedSig hE)
  · exact .inl (Nat.sub_eq_zero_of_le (by omega))

theorem encodedLow_le (x : Single) : encodedLow x ≤ 0x7C00 := by
  have hk := roundedSig_le x
  rw [encodedLow, binade]
  split <;> omega

/-! ### The branches of `encode_core` -/

/-- A field `e` and a significand `k` with its leading one pack to the low bits `2^10 (e - 1) + k`. -/
theorem packHalf_significand (s : BitVec 1) {e k n : Nat} (he : e ≤ 30) (hlo : 2 ^ 10 ≤ k) (hhi : k < 2 ^ 11)
    (hn : n + 2 ^ 10 = 2 ^ 10 * e + k) :
    packHalf s (BitVec.ofNat 5 e) (BitVec.ofNat 10 (k - 1024)) = halfOfLow s n := by
  have hlow : (BitVec.ofNat 5 e).toNat * 2 ^ 10 + (BitVec.ofNat 10 (k - 1024)).toNat = n := by
    rw [BitVec.toNat_ofNat, BitVec.toNat_ofNat]
    omega
  rw [packHalf_eq_halfOfLow, hlow]

/-- The normal path packs the binade and the rounded significand; its carry into Infinity is the low bits 0x7C00. -/
theorem encodeNormal_eq (s : BitVec 1) {sig E n : Nat} (hlo : 113 ≤ E) (hhi : E ≤ 142) (hk : 2 ^ 10 ≤ rne sig 13)
    (hk' : rne sig 13 ≤ 2 ^ 11) (hn : n = 2 ^ 10 * (E - 113) + rne sig 13) :
    encodeNormal s sig ((E : Int) - 112) = (halfOfLow s n, if n = 0x7C00 then .overflow else .none) := by
  have hexp : (E : Int) - 112 = ((E - 112 : Nat) : Int) := by omega
  have hcarry : (E : Int) - 112 + 1 = ((E - 111 : Nat) : Int) := by omega
  unfold encodeNormal
  by_cases hc : rne sig 13 = 2048
  · simp only [hc, if_true]
    by_cases hE : E = 142
    · rw [if_pos (by omega), if_pos (by omega), halfInfinity_eq, show n = 0x7C00 by omega]
    · rw [if_neg (by omega), if_neg (by omega), hcarry, BitVec.ofInt_natCast,
        packHalf_significand s (n := n) (by omega) (by omega) (by omega) (by omega)]
  · simp only [hc, if_false]
    rw [if_neg (by omega), if_neg (by omega), hexp, BitVec.ofInt_natCast,
      packHalf_significand s (n := n) (by omega) hk (by omega) (by omega)]

theorem encodeCore_finite_zero_exp {x : Single} (hE : (singleExp x).toNat = 0) :
    encodeCore x = (halfOfLow (singleSign x) (encodedLow x), encodedLoss x) := by
  have hz : roundedSig x = 0 := rne_eq_zero_of_wide (by rw [roundingShift]; omega) (singleSig_lt x)
  have hlow : encodedLow x = 0 := by
    rw [encodedLow_eq (by omega), hz, binade]
    omega
  rw [encodedLoss, hlow, singleUnits_subnormal hE, ← halfZero_eq]
  by_cases hM : (singleMant x).toNat = 0
  · simp [encodeCore_zero x hE hM, hM]
  · simp [encodeCore_subnormal x hE hM, hM]

theorem encodeCore_finite_small {x : Single} (h1 : 1 ≤ (singleExp x).toNat) (h2 : (singleExp x).toNat ≤ 112) :
    encodeCore x = (halfOfLow (singleSign x) (encodedLow x), encodedLoss x) := by
  have hsh : 126 - (singleExp x).toNat = roundingShift x := by rw [roundingShift]; omega
  have hlow : encodedLow x = roundedSig x := by
    rw [encodedLow_eq (by omega), binade]
    omega
  have hunits : singleUnits x ≠ 0 := ((Nat.two_pow_pos _).trans_le (two_pow_le_singleUnits (by omega))).ne'
  have hle := roundedSig_le x
  rw [encodeCore_small_eq x h1 h2, ← singleSig_normal (by omega), hsh, ← roundedSig, encodedLoss, hlow,
    if_neg (show ¬ roundedSig x = 0x7C00 by omega)]
  by_cases hz : roundedSig x = 0
  · rw [if_pos hz, if_pos ⟨hz, hunits⟩, hz, halfZero_eq]
  · rw [if_neg hz, if_neg fun h => hz h.1, halfOfLow]

theorem encodeCore_finite_inRange {x : Single} (h1 : 113 ≤ (singleExp x).toNat) (h2 : (singleExp x).toNat ≤ 142) :
    encodeCore x = (halfOfLow (singleSign x) (encodedLow x), encodedLoss x) := by
  have hsh : roundingShift x = 13 := by rw [roundingShift]; omega
  have hk : rne (singleSig x) 13 = roundedSig x := by rw [roundedSig, hsh]
  have hge := le_roundedSig h1
  have hlow : encodedLow x = 2 ^ 10 * ((singleExp x).toNat - 113) + rne (singleSig x) 13 := by
    rw [encodedLow_eq (by omega), hk, binade]
  rw [encodeCore_inRange x h1 h2, ← singleSig_normal (by omega),
    encodeNormal_eq _ h1 h2 (hk ▸ hge) (hk ▸ roundedSig_le x) hlow, encodedLoss,
    if_neg (show ¬ (encodedLow x = 0 ∧ singleUnits x ≠ 0) by omega)]

/-- The encoder on a finite operand: the operand's sign with the low bits, and the loss kind they tell. -/
theorem encodeCore_finite {x : Single} (hE : (singleExp x).toNat ≠ 255) :
    encodeCore x = (halfOfLow (singleSign x) (encodedLow x), encodedLoss x) := by
  have hElt := (singleExp x).isLt
  by_cases h0 : (singleExp x).toNat = 0
  · exact encodeCore_finite_zero_exp h0
  by_cases h112 : (singleExp x).toNat ≤ 112
  · exact encodeCore_finite_small (by omega) h112
  by_cases h142 : (singleExp x).toNat ≤ 142
  · exact encodeCore_finite_inRange (by omega) h142
  · have hlow : encodedLow x = 0x7C00 := if_pos (by omega)
    rw [encodeCore_overflow x (by omega) (by omega), encodedLoss, hlow, if_pos rfl, halfInfinity_eq]

/-! ## The loss kind (40_convert.md R64, R68) -/

/-- A finite operand is encoded to a pattern up to the infinity's. -/
theorem encodedHalf_class {x : Single} (hE : (singleExp x).toNat ≠ 255) :
    (halfClass (encodeCore x).1 = .zero ↔ encodedLow x = 0) ∧
      (halfClass (encodeCore x).1 = .infinity ↔ encodedLow x = 0x7C00) := by
  rw [encodeCore_finite hE]
  exact halfClass_halfOfLow _ (encodedLow_le x)

theorem encodeCore_special_loss {x : Single} (hE : (singleExp x).toNat = 255) : (encodeCore x).2 = .none := by
  by_cases hM : (singleMant x).toNat = 0
  · rw [encodeCore_infinity x hE hM]
  · rw [encodeCore_nan x hE hM]

theorem encodedLoss_overflow_iff (x : Single) : encodedLoss x = .overflow ↔ encodedLow x = 0x7C00 := by
  rw [encodedLoss]
  split_ifs with hinf <;> simp [hinf]

theorem encodedLoss_underflow_iff (x : Single) : encodedLoss x = .underflow ↔ encodedLow x = 0 ∧ singleUnits x ≠ 0 := by
  rw [encodedLoss]
  split_ifs with hinf hz
  · simp [hinf]
  · simp [hz]
  · simp [hz]

/-- The low bits are the infinity's by either way of R64: a re-biased exponent of at least 31, or a carry from 30. -/
theorem encodedLow_eq_infinity_iff (x : Single) :
    encodedLow x = 0x7C00 ↔ 143 ≤ (singleExp x).toNat ∨ ((singleExp x).toNat = 142 ∧ roundedSig x = 2048) := by
  have hk := roundedSig_le x
  by_cases hE : 143 ≤ (singleExp x).toNat
  · exact iff_of_true (if_pos hE) (.inl hE)
  · rw [encodedLow_eq (by omega), binade]
    omega

theorem singleUnits_eq_zero_iff (x : Single) : singleUnits x = 0 ↔ singleClass x = .zero := by
  rcases singleClass_cases x with ⟨c, h⟩ | ⟨c, h⟩ | ⟨c, h⟩ | ⟨c, h⟩ | ⟨c, h⟩
  · simp [c, singleUnits_subnormal h.1, h.2]
  · simp [c, singleUnits_subnormal h.1, h.2]
  · simp [c, singleUnits_normal h.1]
  · simp [c, singleUnits, h.1]
  · simp [c, singleUnits, h.1]

theorem encodeCore_overflow_iff (x : Single) :
    (encodeCore x).2 = .overflow ↔ (singleExp x).toNat ≠ 255 ∧ encodedLow x = 0x7C00 := by
  by_cases hE : (singleExp x).toNat = 255
  · simp [encodeCore_special_loss hE, hE]
  · simp [encodeCore_finite hE, hE, encodedLoss_overflow_iff]

theorem encodeCore_underflow_iff (x : Single) :
    (encodeCore x).2 = .underflow ↔ (singleExp x).toNat ≠ 255 ∧ singleClass x ≠ .zero ∧ encodedLow x = 0 := by
  rw [Ne, Ne, ← singleUnits_eq_zero_iff]
  by_cases hE : (singleExp x).toNat = 255
  · simp [encodeCore_special_loss hE, hE]
  · simp [encodeCore_finite hE, hE, encodedLoss_underflow_iff, and_comm]

/-- Settles O8: the loss kind and the class of the result are both told by the low bits. -/
theorem lossKindIsExact : Obligations.LossKindIsExact := by
  intro x
  rw [singleClass_finite_iff]
  refine ⟨?_, ?_, ?_⟩
  · rw [encodeCore_overflow_iff]
    exact and_congr_right fun hE => (encodedHalf_class hE).2.symm
  · rw [encodeCore_overflow_iff, encodedLow_eq_infinity_iff]
    refine and_congr_right fun hE => or_congr (by omega) ?_
    have hbiased : ((singleExp x).toNat : ℤ) - 112 = 30 ↔ (singleExp x).toNat = 142 := by omega
    rw [hbiased]
    refine and_congr_right fun h142 => ?_
    rw [roundedSig, roundingShift, singleSig_normal (by omega), h142]
  · rw [encodeCore_underflow_iff]
    exact and_congr_right fun hE => and_congr_right fun _ => (encodedHalf_class hE).1.symm

/-- `ENC`'s half loses the operand exactly where the encoder records a loss. -/
theorem lostInHalf_iff (x : Single) : lostInHalf x (encodeCore x).1 = true ↔ (encodeCore x).2 ≠ .none := by
  obtain ⟨hover, -, hunder⟩ := lossKindIsExact x
  have hloss : (encodeCore x).2 ≠ .none ↔ (encodeCore x).2 = .overflow ∨ (encodeCore x).2 = .underflow := by
    cases (encodeCore x).2 <;> simp
  rw [hloss, hover, hunder]
  simp [lostInHalf, and_or_left]

theorem Loss.strictError_code (l : Loss) : l.strictError.code = if l = .none then 0 else 1 := by
  cases l <;> rfl

theorem exec_encs (x : Single) (s : State) :
    exec (.encs x) s = .next (s.respond { err := (encodeCore x).2.strictError.code, hOut := (encodeCore x).1 }) := rfl

/-- Without a loss `ENCS` answers as `ENC`. -/
theorem exec_encs_eq_exec_enc {x : Single} (hloss : (encodeCore x).2 = .none) (s : State) :
    exec (.encs x) s = exec (.enc x) s := by
  rw [exec_encs, hloss]
  rfl

/-- Settles O9: `ENCS` answers `ENC`'s half, with the code of the loss kind. -/
theorem encsRaisesPrecisionLossExactly : Obligations.EncsRaisesPrecisionLossExactly := by
  intro x s
  have herr : (encodeCore x).2.strictError.code = if lostInHalf x (encodeCore x).1 then 1 else 0 := by
    simp only [Loss.strictError_code, lostInHalf_iff, ite_not]
  refine ⟨(encodeCore x).1, (encodeCore x).1, rfl, ?_, fun hkept => exec_encs_eq_exec_enc ?_ s⟩
  · rw [exec_encs, herr]
    rfl
  · by_contra hloss
    rw [(lostInHalf_iff x).2 hloss] at hkept
    cases hkept

/-! ## Sign symmetry (40_convert.md R75) -/

theorem halfOfLow_xor_sign (s : BitVec 1) (n : Nat) : halfOfLow s n ^^^ 0x8000#16 = halfOfLow (s ^^^ 1#1) n := by
  rw [halfOfLow, show (0x8000#16 : Half) = 1#1 ++ 0#15 from rfl, BitVec.xor_append, BitVec.xor_zero, halfOfLow]

theorem packHalf_xor_sign (s : BitVec 1) (e : BitVec 5) (m : BitVec 10) :
    packHalf s e m ^^^ 0x8000#16 = packHalf (s ^^^ 1#1) e m := by
  rw [packHalf_eq_halfOfLow, packHalf_eq_halfOfLow, halfOfLow_xor_sign]

theorem packSingle_xor_sign (s : BitVec 1) (e : BitVec 8) (m : BitVec 23) :
    packSingle s e m ^^^ 0x80000000#32 = packSingle (s ^^^ 1#1) e m := by
  rw [packSingle, show (0x80000000#32 : Single) = (1#1 ++ 0#8) ++ 0#23 from rfl, BitVec.xor_append, BitVec.xor_append,
    BitVec.xor_zero, BitVec.xor_zero, packSingle]

/-- The encoder copies the sign bit, and computes the low bits and the loss kind from the other fields alone. -/
theorem encodeCore_packSingle (e : BitVec 8) (m : BitVec 23) :
    ∃ (n : Nat) (l : Loss), ∀ s, encodeCore (packSingle s e m) = (halfOfLow s n, l) := by
  by_cases hE : e.toNat = 255
  · by_cases hM : m.toNat = 0
    · refine ⟨0x7C00, .none, fun s => ?_⟩
      rw [encodeCore_infinity _ (by simpa using hE) (by simpa using hM), singleSign_packSingle, halfInfinity_eq]
    · refine ⟨0x7FFF, .none, fun s => ?_⟩
      rw [encodeCore_nan _ (by simpa using hE) (by simpa using hM), singleSign_packSingle, halfNan, packHalf_eq_halfOfLow]
      rfl
  · refine ⟨encodedLow (packSingle 0 e m), encodedLoss (packSingle 0 e m), fun s => ?_⟩
    rw [encodeCore_finite (by simpa using hE), singleSign_packSingle]
    simp only [encodedLoss, encodedLow, binade, roundedSig, roundingShift, singleSig, singleUnits, singleExp_packSingle,
      singleMant_packSingle]

/-- A subnormal half widened: the significand is `m` with its leading one at bit 23 (40_convert.md R69). -/
theorem decodeSubnormal_eq (s : BitVec 1) (m : Nat) :
    decodeSubnormal s m = packSingle s (BitVec.ofNat 8 (103 + m.log2)) (BitVec.ofNat 23 (m * 2 ^ (23 - m.log2))) := by
  have hmod : BitVec.ofNat 23 (m <<< (23 - m.log2) % 2 ^ 23) = BitVec.ofNat 23 (m * 2 ^ (23 - m.log2)) := by
    apply BitVec.eq_of_toNat_eq
    rw [BitVec.toNat_ofNat, BitVec.toNat_ofNat, Nat.mod_mod, Nat.shiftLeft_eq]
  rw [← hmod, decodeSubnormal]

/-- The decoder copies the sign bit, and computes the other fields from the half's other fields alone. -/
theorem decodeCore_packHalf (e : BitVec 5) (m : BitVec 10) :
    ∃ (E : BitVec 8) (M : BitVec 23), ∀ s, decodeCore (packHalf s e m) = packSingle s E M := by
  by_cases h31 : e.toNat = 31
  · exact ⟨_, _, fun s => by rw [decodeCore_special _ (by simpa using h31), halfSign_packHalf, halfMant_packHalf]⟩
  by_cases h0 : e.toNat = 0
  · by_cases hM : m = 0
    · exact ⟨_, _, fun s => by rw [decodeCore_zero _ (by simpa using h0) (by simpa using hM), halfSign_packHalf]⟩
    · exact ⟨_, _, fun s => by
        rw [decodeCore_subnormal _ (by simpa using h0) (by simpa using hM), halfSign_packHalf, halfMant_packHalf,
          decodeSubnormal_eq]⟩
  · exact ⟨_, _, fun s => by
      rw [decodeCore_normal _ (by simpa using h0) (by simpa using h31), halfSign_packHalf, halfExp_packHalf,
        halfMant_packHalf]⟩

/-- Settles O10: each conversion is a function of the fields below the sign bit, with the sign bit copied. -/
theorem conversionsAreSignSymmetric : Obligations.ConversionsAreSignSymmetric := by
  refine ⟨fun x => ?_, fun h => ?_⟩
  · obtain ⟨n, l, henc⟩ := encodeCore_packSingle (singleExp x) (singleMant x)
    have hx := henc (singleSign x)
    have hflip : x ^^^ 0x80000000#32 = packSingle (singleSign x ^^^ 1#1) (singleExp x) (singleMant x) := by
      rw [← packSingle_xor_sign, packSingle_fields]
    rw [packSingle_fields] at hx
    rw [hflip, hx, henc, halfOfLow_xor_sign, halfSign_halfOfLow]
    exact ⟨rfl, rfl⟩
  · obtain ⟨E, M, hdec⟩ := decodeCore_packHalf (halfExp h) (halfMant h)
    have hh := hdec (halfSign h)
    have hflip : h ^^^ 0x8000#16 = packHalf (halfSign h ^^^ 1#1) (halfExp h) (halfMant h) := by
      rw [← packHalf_xor_sign, packHalf_fields]
    rw [packHalf_fields] at hh
    rw [hflip, hh, hdec, packSingle_xor_sign, singleSign_packSingle]
    exact ⟨rfl, rfl⟩

/-! ## The decoder is exact (40_convert.md R72) -/

theorem toNat_paddedMant (m : BitVec 10) : (m ++ 0#13).toNat = m.toNat * 2 ^ 13 := by
  rw [toNat_append_add, BitVec.toNat_zero, add_zero]

theorem ofNat_significand (m : BitVec 10) : BitVec.ofNat 23 ((2 ^ 10 + m.toNat) * 2 ^ 13) = m ++ 0#13 := by
  have hm := m.isLt
  apply BitVec.eq_of_toNat_eq
  rw [BitVec.toNat_ofNat, toNat_paddedMant]
  omega

/-- The significand of a subnormal half, shifted until its leading one is at bit 23. -/
theorem subnormal_significand_bounds {m : Nat} (hm : m ≠ 0) (hm' : m < 2 ^ 10) :
    m.log2 ≤ 9 ∧ 2 ^ 23 ≤ m * 2 ^ (23 - m.log2) ∧ m * 2 ^ (23 - m.log2) < 2 ^ 24 := by
  have hp : m.log2 < 10 := (Nat.log2_lt hm).2 hm'
  have hsig : (m * 2 ^ (23 - m.log2)).log2 = 23 := by
    rw [log2_mul_two_pow hm]
    omega
  exact ⟨by omega, (Nat.log2_eq_iff (by positivity)).1 hsig⟩

/-- The widening keeps the magnitude: a unit of a half is `2^125` units of binary32. -/
theorem singleUnits_decodeCore {h : Half} (he : (halfExp h).toNat ≠ 31) :
    singleUnits (decodeCore h) = halfUnits h * 2 ^ 125 := by
  have hElt := (halfExp h).isLt
  have hmlt := (halfMant h).isLt
  by_cases h0 : (halfExp h).toNat = 0
  · rw [halfUnits_subnormal h0]
    by_cases hM : halfMant h = 0
    · rw [decodeCore_zero h h0 hM, singleUnits_subnormal (by rw [singleExp_packSingle]; rfl), singleMant_packSingle, hM]
      rfl
    · have hm : (halfMant h).toNat ≠ 0 := fun z => hM (BitVec.eq_of_toNat_eq z)
      obtain ⟨hp, hlo, hhi⟩ := subnormal_significand_bounds hm hmlt
      rw [decodeCore_subnormal h h0 hM, decodeSubnormal_eq, singleUnits_packSingle_normal _ (by omega) (by omega) hlo hhi,
        mul_assoc, ← pow_add]
      congr 2
      omega
  · have hexp : (halfExp h).toNat + 112 - 1 = (halfExp h).toNat - 1 + 112 := by omega
    rw [decodeCore_normal h h0 he, ← ofNat_significand,
      singleUnits_packSingle_normal _ (by omega) (by omega) (by omega) (by omega), halfUnits_normal h0, hexp]
    ring

theorem singleSign_decodeCore (h : Half) : singleSign (decodeCore h) = halfSign h :=
  (conversionsAreSignSymmetric.2 h).1

theorem singleExp_decodeCore_special {h : Half} (he : (halfExp h).toNat = 31) : (singleExp (decodeCore h)).toNat = 255 := by
  rw [decodeCore_special h he, singleExp_packSingle]
  rfl

theorem singleMant_decodeCore_special {h : Half} (he : (halfExp h).toNat = 31) :
    (singleMant (decodeCore h)).toNat = (halfMant h).toNat * 2 ^ 13 := by
  rw [decodeCore_special h he, singleMant_packSingle, toNat_paddedMant]

/-- The exponent field of a decoded pattern: never a binary32 subnormal's. -/
theorem singleExp_decodeCore_cases (h : Half) :
    (halfClass h = .zero ∧ (singleExp (decodeCore h)).toNat = 0) ∨
      ((halfClass h = .subnormal ∨ halfClass h = .normal) ∧ 103 ≤ (singleExp (decodeCore h)).toNat ∧
        (singleExp (decodeCore h)).toNat ≤ 142) ∨
      ((halfClass h = .infinity ∨ halfClass h = .nan) ∧ (singleExp (decodeCore h)).toNat = 255) := by
  have hElt := (halfExp h).isLt
  rcases halfClass_field_cases h with ⟨c, he, hm⟩ | ⟨c, he, hm⟩ | ⟨c, he, he'⟩ | ⟨c, he, -⟩ | ⟨c, he, -⟩
  · refine .inl ⟨c, ?_⟩
    rw [decodeCore_zero h he (BitVec.eq_of_toNat_eq hm), singleExp_packSingle]
    rfl
  · refine .inr (.inl ⟨.inl c, ?_⟩)
    obtain ⟨hp, -⟩ := subnormal_significand_bounds hm (halfMant h).isLt
    rw [decodeCore_subnormal h he fun z => hm (by rw [z]; rfl), decodeSubnormal_eq, singleExp_packSingle,
      toNat_ofNat_exp (by omega)]
    omega
  · refine .inr (.inl ⟨.inr c, ?_⟩)
    rw [decodeCore_normal h he he', singleExp_packSingle, toNat_ofNat_exp (by omega)]
    omega
  · exact .inr (.inr ⟨.inl c, singleExp_decodeCore_special he⟩)
  · exact .inr (.inr ⟨.inr c, singleExp_decodeCore_special he⟩)

theorem singleExp_decodeCore_ne {h : Half} (he : (halfExp h).toNat ≠ 31) : (singleExp (decodeCore h)).toNat ≠ 255 := by
  have hfin := (halfClass_finite_iff h).2 he
  rcases singleExp_decodeCore_cases h with ⟨-, h'⟩ | ⟨-, -, h'⟩ | ⟨c | c, -⟩
  · omega
  · omega
  · rw [c] at hfin; cases hfin
  · rw [c] at hfin; cases hfin

theorem val16_finite {h : Half} (he : (halfExp h).toNat ≠ 31) : val16 h = .number (halfSign h == 1) (halfMag h) := by
  rcases halfClass_field_cases h with ⟨c, -⟩ | ⟨c, -⟩ | ⟨c, -⟩ | ⟨-, he', -⟩ | ⟨-, he', -⟩
  · rw [val16, c]
  · rw [val16, c]
  · rw [val16, c]
  · exact absurd he' he
  · exact absurd he' he

theorem singleMag_eq_halfMag_iff (x : Single) (h : Half) : singleMag x = halfMag h ↔ singleUnits x = halfUnits h * 2 ^ 125 := by
  rw [singleMag_eq_units, halfMag_eq_units, div_eq_div_iff (by positivity) (by positivity)]
  have hscale : halfUnits h * 2 ^ 149 = halfUnits h * 2 ^ 125 * 2 ^ 24 := by rw [mul_assoc, ← pow_add]
  rw [← Nat.mul_left_inj (Nat.two_pow_pos 24).ne', ← hscale]
  exact_mod_cast Iff.rfl

theorem val32_eq_val16_iff {x : Single} {h : Half} (he : (halfExp h).toNat ≠ 31) :
    val32 x = val16 h ↔
      (singleExp x).toNat ≠ 255 ∧ singleSign x = halfSign h ∧ singleUnits x = halfUnits h * 2 ^ 125 := by
  have hsign : ∀ s t : BitVec 1, (s == 1) = (t == 1) ↔ s = t := by decide
  rw [val16_finite he, val32_eq_number_iff, hsign, singleMag_eq_halfMag_iff]

theorem val32_decodeCore {h : Half} (hnan : halfClass h ≠ .nan) : val32 (decodeCore h) = val16 h := by
  by_cases he : (halfExp h).toNat = 31
  · have hm : (halfMant h).toNat = 0 := by
      by_contra hm
      exact hnan ((halfClass_nan_iff h).2 ⟨he, hm⟩)
    have hclass : singleClass (decodeCore h) = .infinity :=
      (singleClass_infinity_iff _).2
        ⟨singleExp_decodeCore_special he, by rw [singleMant_decodeCore_special he, hm, zero_mul]⟩
    rw [val32, hclass, val16, (halfClass_infinity_iff h).2 ⟨he, hm⟩, singleSign_decodeCore]
  · exact (val32_eq_val16_iff he).2 ⟨singleExp_decodeCore_ne he, singleSign_decodeCore h, singleUnits_decodeCore he⟩

theorem singleClass_decodeCore_nan {h : Half} (hnan : halfClass h = .nan) : singleClass (decodeCore h) = .nan := by
  obtain ⟨he, hm⟩ := (halfClass_nan_iff h).1 hnan
  refine (singleClass_nan_iff _).2 ⟨singleExp_decodeCore_special he, ?_⟩
  rw [singleMant_decodeCore_special he]
  omega

/-- Settles O12: the value by units, the exponent field by the class, and the payload of a NaN by its mantissa field. -/
theorem decIsExact : Obligations.DecIsExact := by
  intro h s
  refine ⟨decodeCore h, rfl, val32_decodeCore, ?_, ?_, ?_, fun hnan => ?_⟩
  · rcases singleExp_decodeCore_cases h with ⟨c, hE⟩ | ⟨c | c, hE, -⟩ | ⟨c | c, hE⟩ <;> simp [c] <;> omega
  · rcases singleExp_decodeCore_cases h with ⟨c, hE⟩ | ⟨c | c, hE⟩ | ⟨c | c, hE⟩ <;> simp [c] <;> omega
  · rcases singleExp_decodeCore_cases h with ⟨c, hE⟩ | ⟨c | c, -, hE⟩ | ⟨c | c, hE⟩ <;> simp [c] <;> omega
  · exact ⟨singleClass_decodeCore_nan hnan, singleSign_decodeCore h,
      singleMant_decodeCore_special ((halfClass_nan_iff h).1 hnan).1⟩

/-! ## The encoder gives the nearest half (40_convert.md R73) -/

theorem encodedLow_eq_infinity_iff_units {x : Single} : encodedLow x = 0x7C00 ↔ 4095 * 2 ^ 153 ≤ singleUnits x := by
  have hk := roundedSig_le x
  have hmid := roundedSig_le_iff x 2047
  rw [encodedLow_eq_infinity_iff]
  rcases Nat.lt_trichotomy (singleExp x).toNat 142 with hlt | heq | hgt
  · have hu : singleUnits x < 2 ^ 164 := (singleUnits_lt x).trans_le (Nat.pow_le_pow_right two_pos (by omega))
    omega
  · rw [binade, heq] at hmid
    omega
  · have hu : 2 ^ 165 ≤ singleUnits x :=
      (Nat.pow_le_pow_right two_pos (by omega)).trans (two_pow_le_singleUnits (by omega))
    omega

theorem encodedLow_lt_of_units {x : Single} (hu : singleUnits x < 4095 * 2 ^ 153) :
    (singleExp x).toNat < 143 ∧ encodedLow x < 0x7C00 := by
  have hlow : encodedLow x ≠ 0x7C00 := fun h => (encodedLow_eq_infinity_iff_units.1 h).not_gt hu
  have hle := encodedLow_le x
  have hways := encodedLow_eq_infinity_iff x
  omega

/-- The encoded half is the rounded significand, in steps of the binade. -/
theorem halfUnits_encoded (s : BitVec 1) {x : Single} (hE : (singleExp x).toNat < 143) :
    halfUnits (halfOfLow s (encodedLow x)) = roundedSig x * 2 ^ binade x := by
  have hle := encodedLow_le x
  rw [encodedLow_eq hE] at hle ⊢
  exact halfUnits_halfOfLow s (roundedSig_le x) (binade_eq_zero_or_le x) (by omega)

/-- Another number of steps of the binade is at least as far from the operand as the rounded one. -/
theorem roundedSig_nearest (x : Single) {n : Nat} (hn : n ≠ roundedSig x) :
    |(singleUnits x : ℤ) - roundedSig x * 2 ^ (125 + binade x)| ≤ |(singleUnits x : ℤ) - n * 2 ^ (125 + binade x)| ∧
      (|(singleUnits x : ℤ) - roundedSig x * 2 ^ (125 + binade x)| = |(singleUnits x : ℤ) - n * 2 ^ (125 + binade x)| →
        roundedSig x % 2 = 0) := by
  have hscale : ∀ k : Nat, |(singleUnits x : ℤ) - k * 2 ^ (125 + binade x)| =
      |(singleSig x : ℤ) - k * 2 ^ roundingShift x| * 2 ^ ((singleExp x).toNat - 1) := by
    intro k
    have hfactor : (singleUnits x : ℤ) - k * 2 ^ (125 + binade x) =
        ((singleSig x : ℤ) - k * 2 ^ roundingShift x) * 2 ^ ((singleExp x).toNat - 1) := by
      rw [← shift_add_roundingShift, singleUnits_eq_sig]
      push_cast
      ring
    rw [hfactor, abs_mul, abs_of_nonneg (by positivity : (0 : ℤ) ≤ 2 ^ ((singleExp x).toNat - 1))]
  obtain ⟨hnear, htie⟩ := rne_nearest (singleSig x) (one_le_roundingShift x) hn
  rw [hscale, hscale]
  exact ⟨mul_le_mul_of_nonneg_right hnear (by positivity), fun h => htie (mul_right_cancel₀ (by positivity) h)⟩

/-- Above the lowest binade the operand is nearer to the rounded significand than to any half below its binade. -/
theorem roundedSig_nearer_than_below {x : Single} {g : Half} (hj : binade x ≠ 0) (hg : (halfExp g).toNat ≤ binade x) :
    |(singleUnits x : ℤ) - roundedSig x * 2 ^ (125 + binade x)| < |(singleUnits x : ℤ) - halfUnits g * 2 ^ 125| := by
  have hE : 22 + (singleExp x).toNat = 10 + (125 + binade x) := by rw [binade] at hj ⊢; omega
  have hlow : 2 ^ 10 * 2 ^ (125 + binade x) ≤ singleUnits x := by
    rw [← pow_add, ← hE]
    exact two_pow_le_singleUnits (by rw [binade] at hj; omega)
  have hbelow : halfUnits g * 2 ^ 125 < 2 ^ 10 * 2 ^ (125 + binade x) :=
    calc halfUnits g * 2 ^ 125 < 2 ^ (10 + binade x) * 2 ^ 125 :=
          Nat.mul_lt_mul_of_pos_right
            ((halfUnits_lt g).trans_le (Nat.pow_le_pow_right two_pos (by omega))) (Nat.two_pow_pos _)
      _ = 2 ^ 10 * 2 ^ (125 + binade x) := by ring
  have hnear : |(singleUnits x : ℤ) - roundedSig x * 2 ^ (125 + binade x)| ≤
      |(singleUnits x : ℤ) - (2 ^ 10 : Nat) * 2 ^ (125 + binade x)| := by
    by_cases h : 2 ^ 10 = roundedSig x
    · rw [h]
    · exact (roundedSig_nearest x h).1
  zify at hlow hbelow
  refine hnear.trans_lt ?_
  rw [abs_of_nonneg (by push_cast; linarith), abs_of_nonneg (by linarith)]
  push_cast
  linarith

/-- No half is nearer than the rounded significand in steps of the binade: a half is a number of these steps, or it lies
below the operand's binade. -/
theorem roundedSig_nearest_half {x : Single} {g : Half} (hg : halfUnits g ≠ roundedSig x * 2 ^ binade x) :
    |(singleUnits x : ℤ) - (roundedSig x * 2 ^ binade x : Nat) * 2 ^ 125| ≤ |(singleUnits x : ℤ) - halfUnits g * 2 ^ 125| ∧
      (|(singleUnits x : ℤ) - (roundedSig x * 2 ^ binade x : Nat) * 2 ^ 125| =
          |(singleUnits x : ℤ) - halfUnits g * 2 ^ 125| → roundedSig x % 2 = 0) := by
  have hsteps : ∀ n : Nat, ((n * 2 ^ binade x : Nat) : ℤ) * 2 ^ 125 = n * 2 ^ (125 + binade x) := by
    intro n
    push_cast
    ring
  by_cases hdvd : 2 ^ binade x ∣ halfUnits g
  · obtain ⟨n, hn⟩ := hdvd
    rw [mul_comm] at hn
    rw [hn] at hg ⊢
    rw [hsteps, hsteps]
    exact roundedSig_nearest x fun h => hg (by rw [h])
  · have hexp : (halfExp g).toNat ≤ binade x := not_lt.1 fun h => hdvd (two_pow_dvd_halfUnits h)
    have hj : binade x ≠ 0 := fun h => hdvd (by rw [h, pow_zero]; exact one_dvd _)
    have hlt := roundedSig_nearer_than_below hj hexp
    rw [hsteps]
    exact ⟨hlt.le, fun h => absurd h hlt.ne⟩

/-- The encoded half is nearest to the operand, and even where another half is as near. -/
theorem encoded_nearest {x : Single} (hu : singleUnits x < 4095 * 2 ^ 153) {g h : Half}
    (hh : h = halfOfLow (singleSign x) (encodedLow x)) (hg : halfUnits g ≠ halfUnits h) :
    |(singleUnits x : ℤ) - halfUnits h * 2 ^ 125| ≤ |(singleUnits x : ℤ) - halfUnits g * 2 ^ 125| ∧
      (|(singleUnits x : ℤ) - halfUnits h * 2 ^ 125| = |(singleUnits x : ℤ) - halfUnits g * 2 ^ 125| →
        (halfMant h).toNat % 2 = 0) := by
  obtain ⟨hE, hlow⟩ := encodedLow_lt_of_units hu
  have hunits : halfUnits h = roundedSig x * 2 ^ binade x := by rw [hh, halfUnits_encoded _ hE]
  have hmant : (halfMant h).toNat % 2 = roundedSig x % 2 := by
    rw [hh, halfMant_halfOfLow _ (by omega), encodedLow_eq hE]
    omega
  rw [hmant, hunits]
  exact roundedSig_nearest_half (hunits ▸ hg)

/-- The distance of a half from an operand, in units. -/
theorem abs_halfMag_sub_singleMag (h : Half) (x : Single) :
    |halfMag h - singleMag x| = ((|(singleUnits x : ℤ) - halfUnits h * 2 ^ 125| : ℤ) : ℚ) / 2 ^ 149 := by
  have hunits : halfMag h - singleMag x = -(((singleUnits x : ℤ) - halfUnits h * 2 ^ 125 : ℤ) : ℚ) / 2 ^ 149 := by
    rw [halfMag_eq_units, singleMag_eq_units]
    push_cast
    ring
  rw [hunits, abs_div, abs_neg, Int.cast_abs, abs_of_pos (by positivity : (0 : ℚ) < 2 ^ 149)]

theorem halfMag_inj {g h : Half} : halfMag g = halfMag h ↔ halfUnits g = halfUnits h := by
  rw [halfMag_eq_units, halfMag_eq_units, div_left_inj' (by positivity), Nat.cast_inj]

/-- A magnitude compared with a fraction of the unit. -/
theorem le_singleMag_iff (x : Single) {q : ℚ} (n : Nat) (hq : q = n / 2 ^ 149) : q ≤ singleMag x ↔ n ≤ singleUnits x := by
  rw [hq, singleMag_eq_units, div_le_div_iff_of_pos_right (by positivity), Nat.cast_le]

theorem singleMag_le_iff (x : Single) {q : ℚ} (n : Nat) (hq : q = n / 2 ^ 149) : singleMag x ≤ q ↔ singleUnits x ≤ n := by
  rw [hq, singleMag_eq_units, div_le_div_iff_of_pos_right (by positivity), Nat.cast_le]

theorem singleMag_65520_iff (x : Single) : 65520 ≤ singleMag x ↔ 4095 * 2 ^ 153 ≤ singleUnits x :=
  le_singleMag_iff x _ (by norm_num)

/-- An operand from 65520 on, or an infinity, is encoded to the signed infinity. -/
theorem encodeCore_to_infinity {x : Single} (hnan : singleClass x ≠ .nan)
    (h : singleClass x = .infinity ∨ 65520 ≤ singleMag x) : (encodeCore x).1 = halfInfinity (singleSign x) := by
  by_cases hE : (singleExp x).toNat = 255
  · have hM : (singleMant x).toNat = 0 := by
      by_contra hM
      exact hnan ((singleClass_nan_iff x).2 ⟨hE, hM⟩)
    rw [encodeCore_infinity x hE hM]
  · rcases h with hinf | hmag
    · exact absurd ((singleClass_infinity_iff x).1 hinf).1 hE
    · rw [encodeCore_finite hE, encodedLow_eq_infinity_iff_units.2 ((singleMag_65520_iff x).1 hmag), halfInfinity_eq]

theorem halfClass_halfInfinity (s : BitVec 1) : halfClass (halfInfinity s) = .infinity := by
  rw [halfInfinity_eq, (halfClass_halfOfLow s le_rfl).2]

/-- Settles O7: below 65520 the encoded half is nearest in units of the operand, which divide both magnitudes. -/
theorem encRoundsToNearestHalf : Obligations.EncRoundsToNearestHalf := by
  intro x s hnan
  refine ⟨(encodeCore x).1, rfl, (conversionsAreSignSymmetric.1 x).1, fun hinf => ?_, fun hfin hmag => ?_⟩
  · rw [encodeCore_to_infinity hnan hinf, halfClass_halfInfinity]
  · have hu : singleUnits x < 4095 * 2 ^ 153 := not_le.1 fun h => hmag.not_ge ((singleMag_65520_iff x).2 h)
    have hcode := congrArg Prod.fst (encodeCore_finite ((singleClass_finite_iff x).1 hfin))
    obtain ⟨-, hlow⟩ := encodedLow_lt_of_units hu
    refine ⟨?_, fun g _ => ?_⟩
    · rw [halfClass_finite_iff, hcode, halfExp_halfOfLow _ (by omega)]
      omega
    · rw [abs_halfMag_sub_singleMag, abs_halfMag_sub_singleMag, div_le_div_iff_of_pos_right (by positivity), Int.cast_le,
        div_left_inj' (by positivity), Int.cast_inj, Ne, halfMag_inj]
      by_cases hg : halfUnits g = halfUnits (encodeCore x).1
      · exact ⟨by rw [hg], fun _ hne => absurd hg hne⟩
      · obtain ⟨hnear, htie⟩ := encoded_nearest hu hcode hg
        exact ⟨hnear, fun h _ => htie h⟩

/-! ## Corner cases (40_convert.md R67) -/

/-- In the lowest binade the low bits are compared with a bound at the midpoint above it. -/
theorem encodedLow_le_iff_of_units {x : Single} (hu : singleUnits x < 2 ^ 136) (n : Nat) :
    encodedLow x ≤ n ↔
      2 * singleUnits x < (2 * n + 1) * 2 ^ 125 ∨ (2 * singleUnits x = (2 * n + 1) * 2 ^ 125 ∧ n % 2 = 0) := by
  have hE := singleExp_lt_of_units (n := 114) (by decide) hu
  have hj : binade x = 0 := by rw [binade]; omega
  have hlow : encodedLow x = roundedSig x := by rw [encodedLow_eq (by omega), hj]; omega
  rw [hlow, roundedSig_le_iff, hj]

/-- Up to half a unit the encoder gives zero; the tie goes to zero. -/
theorem encodedLow_zero {x : Single} (hu : singleUnits x ≤ 2 ^ 124) : encodedLow x = 0 := by
  have h0 := encodedLow_le_iff_of_units (x := x) (by omega) 0
  omega

/-- Strictly between half a unit and one unit and a half the encoder gives one unit. -/
theorem encodedLow_one {x : Single} (hlo : 2 ^ 124 < singleUnits x) (hhi : singleUnits x < 3 * 2 ^ 124) :
    encodedLow x = 1 := by
  have h0 := encodedLow_le_iff_of_units (x := x) (by omega) 0
  have h1 := encodedLow_le_iff_of_units (x := x) (by omega) 1
  omega

/-- The last half unit below the normal range rounds up into it. -/
theorem encodedLow_carry {x : Single} (hlo : 2 ^ 135 - 2 ^ 124 ≤ singleUnits x) (hhi : singleUnits x ≤ 2 ^ 135) :
    encodedLow x = 0x0400 := by
  have h0 := encodedLow_le_iff_of_units (x := x) (by omega) 1023
  have h1 := encodedLow_le_iff_of_units (x := x) (by omega) 1024
  omega

/-- Above the last midpoint below the largest finite half, and short of the one above it. -/
theorem encodedLow_largest {x : Single} (hlo : 4093 * 2 ^ 153 < singleUnits x) (hhi : singleUnits x < 4095 * 2 ^ 153) :
    encodedLow x = 0x7BFF := by
  have hgt := lt_singleExp_of_units (x := x) (n := 141) (by omega)
  obtain ⟨hlt, hlow⟩ := encodedLow_lt_of_units hhi
  have hj : binade x = 29 := by rw [binade]; omega
  have hmid := roundedSig_le_iff x 2046
  rw [encodedLow_eq hlt, hj] at hlow ⊢
  rw [hj] at hmid
  omega

theorem singleExp_eq_zero_iff (x : Single) :
    (singleExp x).toNat = 0 ↔ singleClass x = .zero ∨ singleClass x = .subnormal := by
  rcases singleClass_cases x with ⟨c, h⟩ | ⟨c, h⟩ | ⟨c, h⟩ | ⟨c, h⟩ | ⟨c, h⟩ <;> simp [c, h]

/-- Zeros and binary32 subnormals are encoded to the signed zero. -/
theorem encodeCore_of_exp_zero {x : Single} (hE : (singleExp x).toNat = 0) :
    (encodeCore x).1 = packHalf (singleSign x) 0 0 := by
  have hu := singleUnits_lt x
  rw [hE] at hu
  rw [encodeCore_finite (by omega), encodedLow_zero (by omega), packHalf_eq_halfOfLow]
  rfl

/-- Settles O6: the classes are branches of `encode_core`; the ranges of finite operands are ranges of units. -/
theorem encCornerCases : Obligations.EncCornerCases := by
  intro x s
  refine ⟨(encodeCore x).1, rfl, fun hc => ?_, fun hc => ?_, fun hc => ?_, fun hc => ?_, fun hfin => ?_⟩
  · exact encodeCore_of_exp_zero ((singleExp_eq_zero_iff x).2 (.inl hc))
  · obtain ⟨hE, hM⟩ := (singleClass_nan_iff x).1 hc
    rw [encodeCore_nan x hE hM]
    rfl
  · obtain ⟨hE, hM⟩ := (singleClass_infinity_iff x).1 hc
    rw [encodeCore_infinity x hE hM]
    rfl
  · exact encodeCore_of_exp_zero ((singleExp_eq_zero_iff x).2 (.inr hc))
  · have hcode : ∀ n, encodedLow x = n → (encodeCore x).1 = halfOfLow (singleSign x) n := fun n hn => by
      rw [encodeCore_finite ((singleClass_finite_iff x).1 hfin), hn]
    have h65488 := singleMag_le_iff x (q := 65488) (4093 * 2 ^ 153) (by norm_num)
    have h65520 := singleMag_65520_iff x
    have hhalf := singleMag_le_iff x (q := 1 / 2 ^ 25) (2 ^ 124) (by norm_num)
    have hthree := le_singleMag_iff x (q := 3 / 2 ^ 25) (3 * 2 ^ 124) (by norm_num)
    have hlast := le_singleMag_iff x (q := 1 / 2 ^ 14 - 1 / 2 ^ 25) (2 ^ 135 - 2 ^ 124) (by norm_num)
    have hnormal := singleMag_le_iff x (q := 1 / 2 ^ 14) (2 ^ 135) (by norm_num)
    simp only [packHalf_eq_halfOfLow]
    exact ⟨fun h => hcode _ (encodedLow_eq_infinity_iff_units.2 (h65520.1 h)),
      fun h h' => hcode _ (encodedLow_largest (lt_of_not_ge (mt h65488.2 h.not_ge)) (lt_of_not_ge (mt h65520.2 h'.not_ge))),
      fun h => hcode _ (encodedLow_zero (hhalf.1 h)),
      fun h h' => hcode _ (encodedLow_one (lt_of_not_ge (mt hhalf.2 h.not_ge)) (lt_of_not_ge (mt hthree.2 h'.not_ge))),
      fun h h' => hcode _ (encodedLow_carry (hlast.1 h) (hnormal.1 h'))⟩

/-! ## Round trips (40_convert.md R74) -/

/-- The largest finite half is `2047 × 2^29` units, 65504. -/
theorem halfUnits_le_largest {h : Half} (he : (halfExp h).toNat ≠ 31) : halfUnits h ≤ 2047 * 2 ^ 29 := by
  have helt := (halfExp h).isLt
  have hm := (halfMant h).isLt
  by_cases h0 : (halfExp h).toNat = 0
  · rw [halfUnits_subnormal h0]
    omega
  · rw [halfUnits_normal h0]
    exact Nat.mul_le_mul (by omega) (Nat.pow_le_pow_right two_pos (by omega))

/-- An operand whose magnitude and sign a finite half has is encoded to that half, with no loss: nothing is nearer. -/
theorem encodeCore_of_units {x : Single} {g : Half} (hx : (singleExp x).toNat ≠ 255) (hg : (halfExp g).toNat ≠ 31)
    (hs : singleSign x = halfSign g) (hunits : singleUnits x = halfUnits g * 2 ^ 125) : encodeCore x = (g, .none) := by
  have hu : singleUnits x < 4095 * 2 ^ 153 := by
    rw [hunits]
    have := halfUnits_le_largest hg
    omega
  obtain ⟨hE, hlow⟩ := encodedLow_lt_of_units hu
  have hsame : halfUnits (halfOfLow (singleSign x) (encodedLow x)) = halfUnits g := by
    by_contra hne
    obtain ⟨hnear, -⟩ := encoded_nearest hu rfl (Ne.symm hne)
    rw [hunits] at hnear
    push_cast at hnear
    rw [sub_self, abs_zero, abs_nonpos_iff] at hnear
    omega
  have hcode : halfOfLow (singleSign x) (encodedLow x) = g :=
    half_eq_of_units (by rw [halfSign_halfOfLow, hs]) hsame
  have hloss : encodedLoss x = .none := by
    have hzero : encodedLow x = 0 → singleUnits x = 0 := fun h0 => by
      rw [hunits, ← hsame, h0, halfUnits_subnormal (halfExp_halfOfLow _ (by decide)), halfMant_halfOfLow _ (by decide),
        Nat.zero_mod, zero_mul]
    rw [encodedLoss, if_neg hlow.ne, if_neg fun h => h.2 (hzero h.1)]
  rw [encodeCore_finite hx, hcode, hloss]

/-- Encoding a decoded half gives it back, NaNs as the canonical NaN, and records no loss. -/
theorem encodeCore_decodeCore (h : Half) :
    encodeCore (decodeCore h) = (if halfClass h = .nan then packHalf (halfSign h) 31 0x3FF else h, .none) := by
  by_cases he : (halfExp h).toNat = 31
  · have hE := singleExp_decodeCore_special he
    have hM := singleMant_decodeCore_special he
    by_cases hm : (halfMant h).toNat = 0
    · have hback : packHalf (halfSign h) 31 0 = h := by
        rw [← BitVec.eq_of_toNat_eq (x := halfExp h) (y := 31) he, ← BitVec.eq_of_toNat_eq (x := halfMant h) (y := 0) hm,
          packHalf_fields]
      rw [encodeCore_infinity _ hE (by omega), singleSign_decodeCore, if_neg fun hnan => ((halfClass_nan_iff h).1 hnan).2 hm]
      exact congrArg (·, Loss.none) hback
    · rw [encodeCore_nan _ hE (by omega), singleSign_decodeCore, if_pos ((halfClass_nan_iff h).2 ⟨he, hm⟩)]
      rfl
  · rw [if_neg fun hnan => he ((halfClass_nan_iff h).1 hnan).1]
    exact encodeCore_of_units (singleExp_decodeCore_ne he) he (singleSign_decodeCore h) (singleUnits_decodeCore he)

/-- Settles O13: the encoder on the decoded half, and without a loss `ENCS` answers as `ENC`. -/
theorem halfSurvivesDecodeEncode : Obligations.HalfSurvivesDecodeEncode := by
  intro h s
  have hback := encodeCore_decodeCore h
  refine ⟨decodeCore h, _, _, rfl, rfl, rfl, exec_encs_eq_exec_enc (by rw [hback]) _, ?_⟩
  rw [State.respond_resp, hback]
  rfl

/-- A half whose value is a number is finite. -/
theorem halfExp_ne_of_val16_number {h : Half} {negative : Bool} {q : ℚ} (hval : val16 h = .number negative q) :
    (halfExp h).toNat ≠ 31 := by
  intro he
  by_cases hm : (halfMant h).toNat = 0
  · rw [val16, (halfClass_infinity_iff h).2 ⟨he, hm⟩] at hval
    cases hval
  · rw [val16, (halfClass_nan_iff h).2 ⟨he, hm⟩] at hval
    cases hval

/-- A half and a finite operand of one value are each converted to the other: they have one sign and one magnitude. -/
theorem encodeCore_and_decodeCore_of_val_eq {x : Single} {g : Half} (hfin : (singleClass x).finite = true) (hval : val16 g = val32 x) :
    encodeCore x = (g, .none) ∧ decodeCore g = x := by
  have hg := halfExp_ne_of_val16_number (hval.trans ((val32_eq_number_iff x _ _).2 ⟨(singleClass_finite_iff x).1 hfin, rfl, rfl⟩))
  obtain ⟨hx, hs, hu⟩ := (val32_eq_val16_iff hg).1 hval.symm
  refine ⟨encodeCore_of_units hx hg hs hu, single_eq_of_units (singleExp_decodeCore_ne hg) hx ?_ ?_⟩
  · rw [singleSign_decodeCore, hs]
  · rw [singleUnits_decodeCore hg, hu]

/-- Settles O14: the encoded half is the one with the operand's value; the smallest subnormal is encoded to zero. -/
theorem exactSingleSurvivesEncodeDecode : Obligations.ExactSingleSurvivesEncodeDecode := by
  refine ⟨fun x g s hfin hval => ?_, 0x00000001, by decide, by decide⟩
  obtain ⟨henc, hdec⟩ := encodeCore_and_decodeCore_of_val_eq hfin hval
  refine ⟨g, _, _, rfl, ?_, rfl, ?_⟩
  · rw [State.respond_resp, henc]
    rfl
  · rw [State.respond_resp, hdec]
    rfl

end Sys2Proof.Machine
end

section
/-! SUPPORT. The statements about the serializer (41_serialize.md): what each operation makes of its buffer or stream in each
of its cases, the two bytes of a half read back, and sequences of writes. -/

namespace Sys2Proof.Machine

/-! ## Halves as bytes (41_serialize.md R77) -/

/-- Settles O15: the response is written out in the operation's meaning. -/
theorem tobSplitsLittleEndian : Obligations.TobSplitsLittleEndian := by
  refine ⟨fun r hop => (Laws.Spelling.tob r.h r).2 ?_, fun h s => ⟨_, _, rfl, rfl, rfl, ?_⟩⟩
  · simp [hop, encode, Request.ofOp, readsX, readsBuf, readsSt]
  · rintro rfl
    decide

/-! ## Buffers (41_serialize.md R78) -/

theorem frombResponse_of_inside {b : Buffer} {offset : Index} (h : offset.toNat + 2 ≤ b.len.toNat) :
    frombResponse b offset =
      { err := 0, hOut := halfOfBytes (b.data.read offset.toNat) (b.data.read (offset.toNat + 1)) } :=
  if_pos ((b.inRange_iff offset).2 h)

theorem frombResponse_of_outside {b : Buffer} {offset : Index} (h : b.len.toNat < offset.toNat + 2) :
    frombResponse b offset = { err := 2 } :=
  if_neg fun hin => absurd ((b.inRange_iff offset).1 hin) (by omega)

/-- Settles O16: a buffer of fewer than 2 bytes, and the largest offset, are outside the range of every length `W_IDX` bits
hold, because the test does not wrap. -/
theorem frombReadsTwoBytesOrRangeError : Obligations.FrombReadsTwoBytesOrRangeError := by
  intro buf offset s
  have hlen := (s.buffer buf).len.isLt
  exact ⟨frombResponse (s.buffer buf) offset, rfl,
    fun hin => ⟨_, frombResponse_of_inside hin, toNat_halfOfBytes _ _⟩,
    fun hout => frombResponse_of_outside hout,
    fun hshort => frombResponse_of_outside (by omega),
    fun hlast => frombResponse_of_outside (by omega)⟩

/-- Settles O24: `FROMB` puts the two bytes `TOB` gave together again. -/
theorem halfSurvivesBufferRoundTrip : Obligations.HalfSurvivesBufferRoundTrip := by
  intro h s t s' ρ buf offset htob hρ hin hlo hhi
  cases htob
  cases hρ
  have hresp : frombResponse (s'.buffer buf) offset = { err := 0, hOut := h } := by
    rw [frombResponse_of_inside hin, hlo, hhi, halfOfBytes_bytes]
  rw [← hresp]
  rfl

/-! ## Stream operations over the state -/

theorem State.stream_setStream_self {s : State} (hs : s.wf = true) (k : Handle) (st : Stream) :
    (s.setStream k st).stream k = st := by
  rw [State.stream_setStream s k k st hs, if_pos rfl]

/-- What an operation that names a stream leaves: every other stream, and everything that is no stream and no response. -/
theorem exec_frame_off_stream {i : Instr} {s t : State} {k : Handle} (hs : s.wf = true) (hi : streamOf i = some k)
    (h : exec i s = .next t) :
    (∀ j, j ≠ k → t.stream j = s.stream j) ∧
      t.buffers = s.buffers ∧ t.params = s.params ∧ t.requesters = s.requesters ∧ t.schedule = s.schedule := by
  obtain ⟨hp, hq, hsch, hb⟩ := exec_frame h
  exact ⟨fun j hj => exec_other_stream hs h fun hij => hj (Option.some.inj (hij.symm.trans hi)), hb, hp, hq, hsch⟩

/-- `WRS` over the state, where what it makes of the stream is known. -/
theorem exec_wrs_of_stream {h : Half} {k : Handle} {s : State} {st : Stream} {e : ErrorKind}
    (hw : wrsStream s.params.wrsFailWritten h (s.stream k) = (st, e)) :
    exec (.wrs h k) s = .next ((s.setStream k st).respond { err := e.code }) := by
  rw [exec, execWrs, hw]

/-- `RDS` over the state, where what it makes of the stream and its response are known. -/
theorem exec_rds_of_stream {k : Handle} {s : State} {st : Stream} {ρ : Response}
    (hr : rdsStream s.params.rdsFailAdvance (s.stream k) = (st, ρ)) :
    exec (.rds k) s = .next ((s.setStream k st).respond ρ) := by
  rw [exec, execRds, hr]

/-! ## Writing a half to a stream (41_serialize.md R79) -/

/-- The stream with both bytes of a half written, the low byte first: what a successful `WRS` makes of it
(`wrsStream_of_room`). -/
def streamWriteHalf (st : Stream) (h : Half) : Stream := streamWrite (streamWrite st (lowByte h)) (highByte h)

@[simp] theorem streamWriteHalf_pos (st : Stream) (h : Half) : (streamWriteHalf st h).pos = st.pos + 2 := rfl
@[simp] theorem streamWriteHalf_rlen (st : Stream) (h : Half) : (streamWriteHalf st h).rlen = st.rlen := rfl

theorem streamWriteHalf_cap_unbounded {st : Stream} (hcap : st.cap = .unbounded) (h : Half) :
    (streamWriteHalf st h).cap = .unbounded := by
  rw [streamWriteHalf, streamWrite_cap, streamWrite_cap, hcap]
  rfl

theorem streamWriteHalf_cap_bounded {st : Stream} {n : Nat} (hcap : st.cap = .bounded n) (h : Half) :
    (streamWriteHalf st h).cap = .bounded (n - 2) := by
  rw [streamWriteHalf, streamWrite_cap, streamWrite_cap, hcap]
  rfl

theorem streamWriteHalf_read_other {st : Stream} (hst : st.wf = true) (h : Half) {a : Nat} (hlo : a ≠ st.pos)
    (hhi : a ≠ st.pos + 1) : (streamWriteHalf st h).data.read a = st.data.read a := by
  rw [streamWriteHalf, streamWrite_read _ _ _ (streamWrite_wf _ _ hst), streamWrite_pos, if_neg hhi,
    streamWrite_read _ _ _ hst, if_neg hlo]

/-- The room test of `WRS`: an unbounded stream always passes it. -/
theorem Capacity.below_eq_false_iff (c : Capacity) (n : Nat) : Capacity.below c n = false ↔ ∀ k, c = .bounded k → n ≤ k := by
  cases c <;> simp [Capacity.below]

theorem wrsStream_of_room {st : Stream} (hroom : ∀ n, st.cap = .bounded n → 2 ≤ n) (p : WrsFailWritten) (h : Half) :
    wrsStream p h st = (streamWriteHalf st h, .none) := by
  have hbelow : ¬Capacity.below st.cap 2 = true := Bool.eq_false_iff.1 ((Capacity.below_eq_false_iff _ _).2 hroom)
  exact if_neg hbelow

theorem wrsStream_of_no_room {st : Stream} {n : Nat} (hcap : st.cap = .bounded n) (hn : n < 2) (p : WrsFailWritten)
    (h : Half) :
    wrsStream p h st = (if p = .one ∧ n = 1 then streamWrite st (lowByte h) else st, .rangeError) := by
  simp [wrsStream, Capacity.below, hcap, hn]

/-- Settles O18: the stream named holds what two writes at the position make of it, and is all that changes. -/
theorem wrsWritesTwoBytes : Obligations.WrsWritesTwoBytes := by
  intro h k s hs hroom
  have he := exec_wrs_of_stream (wrsStream_of_room hroom s.params.wrsFailWritten h)
  have hst := s.wf_stream k hs
  obtain ⟨hlo, hhi⟩ := streamWrite_streamWrite_read _ (lowByte h) (highByte h) hst
  refine ⟨_, he, rfl, ?_⟩
  rw [State.respond_stream, State.stream_setStream_self hs]
  exact ⟨streamWriteHalf_pos _ _, hlo, hhi, fun a => streamWriteHalf_read_other hst h,
    fun hcap => streamWriteHalf_cap_unbounded hcap h, fun n hcap => streamWriteHalf_cap_bounded hcap h,
    streamWriteHalf_rlen _ _, exec_frame_off_stream hs rfl he⟩

/-- Settles O23: an unbounded stream has room for two bytes. -/
theorem unboundedStreamNeverFails : Obligations.UnboundedStreamNeverFails := by
  intro h k s hs hcap
  obtain ⟨t, he, hresp, -, -, -, -, hunbounded, -⟩ := wrsWritesTwoBytes h k s hs fun n hn => by rw [hcap] at hn; cases hn
  exact ⟨t, he, hresp, hunbounded hcap⟩

/-- Settles O19, by whether the failed write leaves a byte; where it does not, the stream is written back as it was. -/
theorem wrsWithoutRoomIsRangeError : Obligations.WrsWithoutRoomIsRangeError := by
  intro h k s n hs hcap hn
  have he := exec_wrs_of_stream (wrsStream_of_no_room hcap hn s.params.wrsFailWritten h)
  by_cases hone : s.params.wrsFailWritten = .one ∧ n = 1
  · rw [if_pos hone] at he
    have hst := s.wf_stream k hs
    refine ⟨_, he, rfl, fun hno => absurd hone hno, fun _ hn1 => ?_⟩
    rw [State.respond_stream, State.stream_setStream_self hs]
    refine ⟨rfl, ?_, rfl, ?_, fun a ha => ?_, exec_frame_off_stream hs rfl he⟩
    · rw [streamWrite_cap, hcap, hn1]
      rfl
    · rw [streamWrite_read _ _ _ hst, if_pos rfl]
      rfl
    · rw [streamWrite_read _ _ _ hst, if_neg ha]
  · rw [if_neg hone, State.setStream_self s k hs] at he
    exact ⟨_, he, rfl, fun _ => rfl, fun hp hn1 => absurd ⟨hp, hn1⟩ hone⟩

/-! ## Reading a half from a stream (41_serialize.md R80) -/

theorem rdsStream_of_two_left {st : Stream} (hleft : st.pos + 2 ≤ st.rlen) (p : RdsFailAdvance) :
    rdsStream p st =
      ({ st with pos := st.pos + 2 }, { err := 0, hOut := halfOfBytes (st.data.read st.pos) (st.data.read (st.pos + 1)) }) := by
  have havail : ¬st.avail < 2 := by rw [Stream.avail]; omega
  exact if_neg havail

theorem rdsStream_of_fewer_left {st : Stream} (hleft : st.rlen < st.pos + 2) (p : RdsFailAdvance) :
    rdsStream p st = ({ st with pos := st.pos + RdsFailAdvance.amount p st.avail }, { err := 2 }) := by
  have havail : st.avail < 2 := by rw [Stream.avail]; omega
  exact if_pos havail

/-- A failed read stays unless `RDS_FAIL_ADVANCE` is avail and exactly one byte was left. -/
theorem RdsFailAdvance.amount_of_failed {p : RdsFailAdvance} {st : Stream} (hleft : st.rlen < st.pos + 2) :
    RdsFailAdvance.amount p st.avail = if p = .avail ∧ st.rlen = st.pos + 1 then 1 else 0 := by
  cases p with
  | zero => simp [RdsFailAdvance.amount]
  | avail =>
    simp only [RdsFailAdvance.amount, Stream.avail, true_and]
    split <;> omega

/-- Settles O20: the position of the stream named is all that changes. -/
theorem rdsReadsTwoBytes : Obligations.RdsReadsTwoBytes := by
  intro k s hs hleft
  have he := exec_rds_of_stream (rdsStream_of_two_left hleft s.params.rdsFailAdvance)
  refine ⟨_, _, he, rfl, toNat_halfOfBytes _ _, ?_, exec_frame_off_stream hs rfl he⟩
  rw [State.respond_stream, State.stream_setStream_self hs]

/-- Settles O21, by whether the failed read moves; where it does not, the stream is written back as it was. -/
theorem rdsAtTheEndIsRangeError : Obligations.RdsAtTheEndIsRangeError := by
  intro k s hs hleft
  have he := exec_rds_of_stream (rdsStream_of_fewer_left hleft s.params.rdsFailAdvance)
  rw [RdsFailAdvance.amount_of_failed hleft] at he
  by_cases hmoves : s.params.rdsFailAdvance = .avail ∧ (s.stream k).rlen = (s.stream k).pos + 1
  · obtain ⟨hp, hone⟩ := hmoves
    rw [if_pos ⟨hp, hone⟩] at he
    refine ⟨_, he, rfl, fun hnone => absurd hone (by omega),
      fun hzero => absurd (hp.symm.trans hzero) (by decide), fun _ _ => ?_⟩
    rw [State.respond_stream, State.stream_setStream_self hs]
    exact ⟨rfl, exec_frame_off_stream hs rfl he⟩
  · rw [if_neg hmoves, add_zero, State.setStream_self s k hs] at he
    exact ⟨_, he, rfl, fun _ => rfl, fun _ => rfl, fun hp hone => absurd ⟨hp, hone⟩ hmoves⟩

/-! ## Halves in a stream (41_serialize.md R82) -/

/-- Settles O25: the written stream holds the two bytes of the half (20_memory.md R43), and `RDS` puts them together again. -/
theorem halfSurvivesStreamRoundTrip : Obligations.HalfSurvivesStreamRoundTrip := by
  intro h k j s t s' hs hs' hwrs hresp hdata hpos hleft
  obtain ⟨hmoved, -, hbytes⟩ := streamAccessAdvancesByTwo _ k s t _ hs rfl hwrs hresp rfl
  obtain ⟨hlo, hhi⟩ := hbytes h rfl
  have hleft' : (s'.stream j).pos + 2 ≤ (s'.stream j).rlen := hpos ▸ hleft
  refine ⟨_, exec_rds_of_stream (rdsStream_of_two_left hleft' s'.params.rdsFailAdvance), ?_, hmoved, ?_⟩
  · rw [State.respond_resp, hdata, hpos, hlo, hhi]
    exact congrArg (fun g => some ({ err := 0, hOut := g } : Response)) (halfOfBytes_bytes h)
  · rw [State.respond_stream, State.stream_setStream_self hs']

theorem execAll_cons_of_next {i : Instr} {s t : State} (h : exec i s = .next t) (rest : List Instr) :
    execAll (i :: rest) s = execAll rest t := by
  rw [execAll, h]

/-- Settles O26, by induction on the halves: the first is written at the position, and those after it from 2 bytes on, which
leaves the first one's bytes. -/
theorem writtenHalvesArePacked : Obligations.WrittenHalvesArePacked := by
  intro halves
  induction halves with
  | nil => exact fun k s _ _ => ⟨s, rfl, rfl, fun i hi => absurd hi (Nat.not_lt_zero i), fun _ _ => rfl, fun _ _ => rfl, rfl⟩
  | cons h rest ih =>
    intro k s hs hroom
    rw [List.length_cons] at hroom
    obtain ⟨u, hu, -, hupos, hulo, huhi, huother, huunb, hubdd, -, hustreams, hubuffers, -⟩ :=
      wrsWritesTwoBytes h k s hs fun n hn => by have := hroom n hn; omega
    have huroom : ∀ n, (u.stream k).cap = .bounded n → 2 * rest.length ≤ n := by
      intro n hn
      cases hcap : (s.stream k).cap with
      | unbounded => rw [huunb hcap] at hn; cases hn
      | bounded m =>
        have hm := hroom m hcap
        rw [hubdd m hcap] at hn
        cases hn
        omega
    obtain ⟨t, ht, htpos, htbytes, htother, htstreams, htbuffers⟩ := ih k u (exec_wf hs hu) huroom
    rw [hupos] at htpos htbytes htother
    refine ⟨t, (execAll_cons_of_next hu _).trans ht, ?_, fun i hi => ?_, fun a ha => ?_,
      fun j hj => (htstreams j hj).trans (hustreams j hj), htbuffers.trans hubuffers⟩
    · rw [htpos, List.length_cons]
      omega
    · cases i with
      | zero => exact ⟨(htother _ (by omega)).trans hulo, (htother _ (by omega)).trans huhi⟩
      | succ i =>
        have hnext := htbytes i (by simpa using hi)
        rwa [show (s.stream k).pos + 2 + 2 * i = (s.stream k).pos + 2 * (i + 1) by omega] at hnext
    · rw [List.length_cons] at ha
      rw [htother a (by omega), huother a (by omega) (by omega)]

end Sys2Proof.Machine
end

section
/-! SUPPORT. The statements about errors (60_exceptions.md): which error code each operation answers and when, and what a
failing operation leaves. -/

namespace Sys2Proof.Machine

/-! ## Error codes (60_exceptions.md R83 to R88) -/

/-- The error code of `FROMB`, by the range test (60_exceptions.md R85 (a)). -/
theorem frombResponse_err (b : Buffer) (offset : Index) :
    (frombResponse b offset).err = if b.len.toNat < offset.toNat + 2 then 2 else 0 := by
  split
  · next hout => rw [frombResponse_of_outside hout]
  · next hin => rw [frombResponse_of_inside (not_lt.1 hin)]

/-- The error code of `RDS`, by the bytes left (60_exceptions.md R85 (b)). -/
theorem rdsStream_err (p : RdsFailAdvance) (st : Stream) :
    (rdsStream p st).2.err = if st.rlen < st.pos + 2 then 2 else 0 := by
  split
  · next hfew => rw [rdsStream_of_fewer_left hfew]
  · next hleft => rw [rdsStream_of_two_left (not_lt.1 hleft)]

/-- The error code of `WRS`, by the room left, whatever a failed write leaves written (60_exceptions.md R85 (c)). -/
theorem wrsStream_err (p : WrsFailWritten) (h : Half) (st : Stream) :
    (wrsStream p h st).2.code = if Capacity.below st.cap 2 then 2 else 0 := by
  rcases wrsStream_cases p h st with ⟨hbelow, -, e⟩ | ⟨hbelow, -, e⟩ | ⟨hroom, e⟩
  · rw [e, if_pos hbelow]
    rfl
  · rw [e, if_pos hbelow]
    rfl
  · rw [e, hroom]
    rfl

theorem Capacity.below_iff (c : Capacity) (n : Nat) : Capacity.below c n = true ↔ ∃ k, c = .bounded k ∧ k < n := by
  cases c <;> simp [Capacity.below]

/-- Settles O28, by the operations: the code is written out in the meaning, or is one of two by the operation's own test. -/
theorem selectSettlesErrorKind : Obligations.SelectSettlesErrorKind := by
  intro i s
  cases i with
  | enc x => exact ⟨_, _, rfl, rfl, rfl⟩
  | encs x => exact ⟨_, _, rfl, rfl, by simpa only [Loss.strictError_code] using ite_eq_or_eq _ _ _⟩
  | dec x => exact ⟨_, _, rfl, rfl, rfl⟩
  | tob x => exact ⟨_, _, rfl, rfl, rfl⟩
  | fromb buf offset => exact ⟨_, _, rfl, rfl, by simpa only [frombResponse_err] using (ite_eq_or_eq _ _ _).symm⟩
  | wrs x k => exact ⟨_, _, rfl, rfl, by simpa only [wrsStream_err] using (ite_eq_or_eq _ _ _).symm⟩
  | rds k => exact ⟨_, _, rfl, rfl, by simpa only [rdsStream_err] using (ite_eq_or_eq _ _ _).symm⟩
  | reserved => exact ⟨_, _, rfl, rfl, rfl⟩

/-- Settles O27, as three of the cases of O28. -/
theorem encDecTobNeverRaise : Obligations.EncDecTobNeverRaise := by
  intro i s hi
  obtain ⟨t, ρ, he, hρ, herr⟩ := selectSettlesErrorKind i s
  refine ⟨t, ρ, he, hρ, ?_⟩
  rcases hi with ⟨x, rfl⟩ | ⟨h, rfl⟩ | ⟨h, rfl⟩ <;> exact herr

/-- Settles O31: `op = 111` is the ill-formed request, which decodes to the reserved operation whatever else it holds. -/
theorem reservedSelectAnswersIllegalOp : Obligations.ReservedSelectAnswersIllegalOp := by
  intro r s hop
  have hill : r.wf = false := by rw [Request.wf, hop]; rfl
  rw [(wf_eq_false_iff_decode_reserved r).1 hill]
  rfl

/-! ## RangeError (60_exceptions.md R85) -/

theorem exec_err_eq_two_iff {i : Instr} {s t : State} {ρ : Response} (h : exec i s = .next t) (hρ : t.resp = some ρ) :
    ρ.err = 2 ↔
      (∃ buf offset, i = .fromb buf offset ∧ (s.buffer buf).len.toNat < offset.toNat + 2) ∨
      (∃ k, i = .rds k ∧ (s.stream k).rlen < (s.stream k).pos + 2) ∨
      (∃ x k n, i = .wrs x k ∧ (s.stream k).cap = .bounded n ∧ n < 2) := by
  cases i <;> cases h <;> cases hρ
  case enc x => simp [ErrorKind.code]
  case encs x => simp [Loss.strictError_code, ite_eq_iff]
  case dec x => simp [ErrorKind.code]
  case tob x => simp [ErrorKind.code]
  case fromb buf offset => simp [frombResponse_err]
  case wrs x k => simp [wrsStream_err, Capacity.below_iff]
  case rds k => simp [rdsStream_err]
  case reserved => simp [Response.error, ErrorKind.code]

/-- A response with RangeError carries nothing else (10_state.md R27). -/
theorem exec_rangeError_resp {i : Instr} {s t : State} {ρ : Response} (h : exec i s = .next t) (hρ : t.resp = some ρ)
    (herr : ρ.err = 2) : ρ = { err := 2 } := by
  rcases (exec_err_eq_two_iff h hρ).1 herr with ⟨buf, offset, rfl, hout⟩ | ⟨k, rfl, hfew⟩ | ⟨x, k, n, rfl, -, -⟩ <;>
    cases h <;> cases hρ
  · exact frombResponse_of_outside hout
  · rw [rdsStream_of_fewer_left hfew]
  · exact congrArg (fun e => ({ err := e } : Response)) herr

/-- Settles O29. -/
theorem rangeErrorExactly : Obligations.RangeErrorExactly :=
  fun _ _ _ _ h hρ => ⟨exec_err_eq_two_iff h hρ, exec_rangeError_resp h hρ⟩

/-! ## What a failing operation leaves (60_exceptions.md R90) -/

/-- All a failed `WRS` does: it answers, or it also leaves the one byte there was room for (41_serialize.md R79). -/
theorem exec_wrs_failed {h : Half} {k : Handle} {s t : State} {ρ : Response} (hs : s.wf = true)
    (he : exec (.wrs h k) s = .next t) (hρ : t.resp = some ρ) (herr : ρ.err ≠ 0) :
    t = s.respond ρ ∨
      s.params.wrsFailWritten = .one ∧ (s.stream k).cap = .bounded 1 ∧
        t = (s.setStream k (streamWrite (s.stream k) (lowByte h))).respond ρ := by
  rcases wrsStream_cases s.params.wrsFailWritten h (s.stream k) with ⟨-, -, hw⟩ | ⟨-, ⟨hp, hcap⟩, hw⟩ | ⟨-, hw⟩ <;>
    rw [exec_wrs_of_stream hw] at he <;> cases he <;> cases hρ
  · exact .inl (by rw [State.setStream_self s k hs])
  · exact .inr ⟨hp, hcap, rfl⟩
  · exact absurd rfl herr

/-- All a failed `RDS` does: it answers, or it also passes the one byte that was left (41_serialize.md R80). -/
theorem exec_rds_failed {k : Handle} {s t : State} {ρ : Response} (hs : s.wf = true) (he : exec (.rds k) s = .next t)
    (hρ : t.resp = some ρ) (herr : ρ.err ≠ 0) :
    t = s.respond ρ ∨
      s.params.rdsFailAdvance = .avail ∧ (s.stream k).rlen = (s.stream k).pos + 1 ∧
        t = (s.setStream k { s.stream k with pos := (s.stream k).pos + 1 }).respond ρ := by
  by_cases hfew : (s.stream k).rlen < (s.stream k).pos + 2
  · rw [exec_rds_of_stream (rdsStream_of_fewer_left hfew _), RdsFailAdvance.amount_of_failed hfew] at he
    cases he
    cases hρ
    split
    · next hmoves =>
      obtain ⟨hp, hone⟩ := hmoves
      exact .inr ⟨hp, hone, rfl⟩
    · rw [add_zero, State.setStream_self s k hs]
      exact .inl rfl
  · rw [exec_rds_of_stream (rdsStream_of_two_left (not_lt.1 hfew) _)] at he
    cases he
    cases hρ
    exact absurd rfl herr

/-- Settles O30: an operation that names no stream only answers; the two that do are the exceptions the parameters allow. -/
theorem failedOperationsArePrecise : Obligations.FailedOperationsArePrecise := by
  intro i s t ρ hs h hρ herr
  rcases exec_cases i s with ⟨ρ', e⟩ | ⟨x, k, rfl, -⟩ | ⟨k, rfl, -⟩
  · rw [e] at h
    cases h
    cases hρ
    exact .inl rfl
  · rcases exec_wrs_failed hs h hρ herr with ht | ⟨hp, hcap, ht⟩
    · exact .inl ht
    · rw [streamWrite, hcap] at ht
      exact .inr (.inr ⟨x, k, rfl, hp, hcap, ht⟩)
  · rcases exec_rds_failed hs h hρ herr with ht | ⟨hp, hone, ht⟩
    · exact .inl ht
    · exact .inr (.inl ⟨k, rfl, hp, hone, ht⟩)

end Sys2Proof.Machine
end

section
/-! SUPPORT. The statements about completion (70_reset_and_hazards.md): no step stops, and a run of as many steps as requests are
pending answers all of them. -/

namespace Sys2Proof.Machine

/-! ## One step -/

/-- A step that takes no request is idle. -/
theorem step_of_fetch_none {s : State} (hf : s.fetch = none) : step s = .next s.idle := by
  simp only [step, hf]

/-- Settles O39, by whether a request is taken: an idle step completes, and so does every operation. -/
theorem everyStepCompletes : Obligations.EveryStepCompletes := by
  refine fun s => ⟨?_, fun hidle => step_of_fetch_none (s.fetch_none.2 hidle)⟩
  cases hf : s.fetch with
  | none => exact ⟨s.idle, step_of_fetch_none hf⟩
  | some rq =>
    obtain ⟨u, -, he, -⟩ := exec_completes (decode rq.2) (s.accept rq.1)
    exact ⟨u.deliver rq.1, step_of_fetch hf he⟩

/-- Where a request is pending, all a step changes of the requesters is the entry of the one it answers. -/
theorem step_sets_requester {s : State} {r₀ : Nat} (h : s.hasPending r₀ = true) :
    ∃ t r p q rest ρ, step s = .next t ∧ s.requesters[r]? = some p ∧ p.pending = q :: rest ∧
      t.requesters = s.requesters.set r { pending := rest, responses := p.responses ++ [ρ] } := by
  obtain ⟨t, -, r, p, q, rest, ρ, hstep, hp, hq, -, -, -, -, -, -, hself, hother⟩ :=
    stepAnswersOneRequestInIssueOrder s ⟨r₀, h⟩
  refine ⟨t, r, p, q, rest, ρ, hstep, hp, hq, List.ext_getElem? fun j => ?_⟩
  have hr : r < s.requesters.length := (List.getElem?_eq_some_iff.1 hp).1
  by_cases hj : j = r
  · rw [hj, hself, List.getElem?_set_self hr]
  · rw [hother j hj, List.getElem?_set_ne (Ne.symm hj)]

/-! ## How many requests are pending -/

/-- No request is pending exactly where every requester's queue is empty. -/
theorem State.pendingCount_eq_zero_iff (s : State) :
    s.pendingCount = 0 ↔ ∀ (r : Nat) (p : Requester), s.requesters[r]? = some p → p.pending = [] := by
  rw [State.pendingCount, List.sum_eq_zero_iff, List.forall_mem_map]
  constructor
  · intro h r p hp
    exact List.length_eq_zero_iff.1 (h p (List.mem_of_getElem? hp))
  · intro h p hp
    obtain ⟨r, hr⟩ := List.mem_iff_getElem?.1 hp
    exact List.length_eq_zero_iff.2 (h r p hr)

/-- Where the count is not zero, some requester has a request pending. -/
theorem State.exists_hasPending {s : State} (h : s.pendingCount ≠ 0) : ∃ r, s.hasPending r = true := by
  by_contra hnone
  refine h (s.pendingCount_eq_zero_iff.2 fun r p hp => ?_)
  by_contra hne
  obtain ⟨q, rest, hq⟩ := List.exists_cons_of_ne_nil hne
  exact hnone ⟨r, (s.hasPending_iff r).2 ⟨p, q, rest, hp, hq⟩⟩

/-- A requester whose queue is one shorter makes the count one less. -/
theorem State.pendingCount_set {s t : State} {r : Nat} {p p' : Requester} (hp : s.requesters[r]? = some p)
    (ht : t.requesters = s.requesters.set r p') (hlen : p.pending.length = p'.pending.length + 1) :
    s.pendingCount = t.pendingCount + 1 := by
  obtain ⟨hr, rfl⟩ := List.getElem?_eq_some_iff.1 hp
  obtain ⟨before, after, hs, -, hset⟩ := List.exists_of_set (a' := p') hr
  rw [State.pendingCount, State.pendingCount, ht, hset, hs]
  simp only [List.map_append, List.map_cons, List.sum_append, List.sum_cons]
  omega

/-! ## Runs -/

/-- Every requester has had all it had pending answered: one more response for each request, after those it had. -/
def AllAnswered (s t : State) : Prop :=
  ∀ (r : Nat) (p : Requester), s.requesters[r]? = some p →
    ∃ added : List Response, added.length = p.pending.length ∧
      t.requesters[r]? = some { pending := [], responses := p.responses ++ added }

/-- Where nothing is pending, everything is answered. -/
theorem AllAnswered.of_pendingCount_zero {s : State} (h : s.pendingCount = 0) : AllAnswered s s := by
  intro r p hp
  have hnil : p.pending = [] := s.pendingCount_eq_zero_iff.1 h r p hp
  refine ⟨[], by simp [hnil], ?_⟩
  rw [hp, List.append_nil, ← hnil]

/-- Answering one request, and then all that are left, answers all. -/
theorem AllAnswered.of_step {s u t : State} {r : Nat} {p : Requester} {q : Request} {rest : List Request} {ρ : Response}
    (hp : s.requesters[r]? = some p) (hq : p.pending = q :: rest)
    (hu : u.requesters = s.requesters.set r { pending := rest, responses := p.responses ++ [ρ] })
    (h : AllAnswered u t) : AllAnswered s t := by
  intro j pj hj
  by_cases hjr : j = r
  · subst hjr
    obtain rfl : p = pj := Option.some.inj (hp.symm.trans hj)
    have hr : j < s.requesters.length := (List.getElem?_eq_some_iff.1 hp).1
    obtain ⟨added, hlen, ht⟩ := h j _ (by rw [hu, List.getElem?_set_self hr])
    refine ⟨ρ :: added, by rw [hq, List.length_cons, List.length_cons, hlen], ?_⟩
    rw [ht, List.append_assoc, List.singleton_append]
  · exact h j pj (by rwa [hu, List.getElem?_set_ne (Ne.symm hjr)])

/-- As many steps as there are requests pending answer all of them, by induction on how many there are. -/
theorem run_answers_all {n : Nat} {s : State} (hn : s.pendingCount = n) :
    ∃ t : State, Host.Core.run Sys2Proof.core n s = .next t ∧ t.pendingCount = 0 ∧ AllAnswered s t := by
  induction n generalizing s with
  | zero => exact ⟨s, rfl, hn, .of_pendingCount_zero hn⟩
  | succ n ih =>
    obtain ⟨r₀, h₀⟩ := State.exists_hasPending (s := s) (by omega)
    obtain ⟨u, r, p, q, rest, ρ, hstep, hp, hq, hu⟩ := step_sets_requester h₀
    have hcount : s.pendingCount = u.pendingCount + 1 := State.pendingCount_set hp hu (by rw [hq, List.length_cons])
    obtain ⟨t, hrun, hzero, hall⟩ := ih (s := u) (by omega)
    exact ⟨t, by rw [run_succ_of_step n hstep, hrun], hzero, hall.of_step hp hq hu⟩

/-- Settles O41: the run of exactly as many steps as requests are pending. -/
theorem everyPendingRequestIsAnswered : Obligations.EveryPendingRequestIsAnswered := fun _ => run_answers_all rfl

end Sys2Proof.Machine
end
